-- ==== Sys2Proof/Word.lean ====
section
/-! DEFINITION. The widths this hardware works in (00_scope.md rules R8, R10): bytes, 16-bit words, nibbles and
12-bit addresses. Every value is unsigned (R11). -/

namespace Sys2Proof

/-- A byte: one memory cell, one general register, one timer. -/
abbrev Byte := BitVec 8

/-- A 16-bit word: an instruction word, PC, I, a call-stack entry. -/
abbrev Word := BitVec 16

/-- A 4-bit value: a register number, a key index, a sprite height. -/
abbrev Nibble := BitVec 4

/-- A 12-bit address: the immediate NNN and the ports `load_addr` and `obs_addr`. -/
abbrev Addr := BitVec 12

end Sys2Proof
end

