-- ==== Sys2Proof/Machine/Flags.lean ====
section
/-! DEFINITION. Every flag computation and the result beside it (42_alu.md rule R162): operands are read as unsigned
integers, the result is computed exactly and narrowed to 8 bits at the end. The flag goes to VF (10_state.md rule R23). -/

namespace Sys2Proof.Machine

/-- `(a + b) mod 256` (R162). -/
def addResult (a b : Byte) : Byte := BitVec.ofNat 8 ((a.toNat + b.toNat) % 256)
/-- Carry: `a + b > 255` (R162). -/
def addCarry (a b : Byte) : Bool := decide (255 < a.toNat + b.toNat)

/-- `(a - b) mod 256` over the integers (R162). -/
def subResult (a b : Byte) : Byte := BitVec.ofInt 8 (((a.toNat : Int) - (b.toNat : Int)) % 256)
/-- Not-borrow: `a >= b` (R162). -/
def subNotBorrow (a b : Byte) : Bool := decide (b.toNat ≤ a.toNat)

/-- `a >> 1` (42_alu.md rule R158). -/
def shrResult (a : Byte) : Byte := BitVec.ofNat 8 (a.toNat / 2)
/-- The bit shifted out on the right, `a[0]` (R158). -/
def shrOut (a : Byte) : Bool := a.getLsbD 0

/-- `(a << 1) mod 256` (42_alu.md rule R160). -/
def shlResult (a : Byte) : Byte := BitVec.ofNat 8 (a.toNat * 2 % 256)
/-- The bit shifted out on the left, `a[7]` (R160). -/
def shlOut (a : Byte) : Bool := a.getLsbD 7

end Sys2Proof.Machine
end

