-- ==== Sys2Proof/Syntax.lean ====
section
/-! DEFINITION. The instruction set: one constructor for each of the 34 rows of spec/opcode_table.json (30_encoding.md
rules R85 and R87). Operands are the fields of rule R71. The bits that a row's pattern marks `u` (they "do not change
the behaviour, whatever their value", R82) are kept as fields too, because the fault record holds the instruction word
as it was fetched (60_exceptions.md rule R225), so an instruction must give its whole word back (assumption 5). -/

namespace Sys2Proof

/-- An instruction. `x`, `y`: register numbers; `nn`: immediate byte; `nnn`: immediate address; `n`: sprite height;
`u`: bits that are decoded and ignored. -/
inductive Instr where
  /-- `CLS`, 0uu0 (R100). -/
  | cls (u : Byte)
  /-- `RET`, 0uuE (R121). -/
  | ret (u : Byte)
  /-- `JP addr`, 1nnn (R122). -/
  | jp (nnn : Addr)
  /-- `CALL addr`, 2nnn (R123). -/
  | call (nnn : Addr)
  /-- `SE Vx, byte`, 3xnn (R124). -/
  | seByte (x : Nibble) (nn : Byte)
  /-- `SNE Vx, byte`, 4xnn (R125). -/
  | sneByte (x : Nibble) (nn : Byte)
  /-- `SE Vx, Vy`, 5xyu (R126). -/
  | seReg (x y u : Nibble)
  /-- `LD Vx, byte`, 6xnn (R150). -/
  | ldByte (x : Nibble) (nn : Byte)
  /-- `ADD Vx, byte`, 7xnn (R151). -/
  | addByte (x : Nibble) (nn : Byte)
  /-- `LD Vx, Vy`, 8xy0 (R152). -/
  | ldReg (x y : Nibble)
  /-- `OR Vx, Vy`, 8xy1 (R153). -/
  | orReg (x y : Nibble)
  /-- `AND Vx, Vy`, 8xy2 (R154). -/
  | andReg (x y : Nibble)
  /-- `XOR Vx, Vy`, 8xy3 (R155). -/
  | xorReg (x y : Nibble)
  /-- `ADD Vx, Vy`, 8xy4 (R156). -/
  | addReg (x y : Nibble)
  /-- `SUB Vx, Vy`, 8xy5 (R157). -/
  | sub (x y : Nibble)
  /-- `SHR Vx {, Vy}`, 8xu6 (R158). -/
  | shr (x u : Nibble)
  /-- `SUBN Vx, Vy`, 8xy7 (R159). -/
  | subn (x y : Nibble)
  /-- `SHL Vx {, Vy}`, 8xuE (R160). -/
  | shl (x u : Nibble)
  /-- `SNE Vx, Vy`, 9xyu (R127). -/
  | sneReg (x y u : Nibble)
  /-- `LD I, addr`, Annn (R180). -/
  | ldI (nnn : Addr)
  /-- `JP V0, addr`, Bnnn (R128). -/
  | jpV0 (nnn : Addr)
  /-- `RND Vx, byte`, Cxnn (R161). -/
  | rnd (x : Nibble) (nn : Byte)
  /-- `DRW Vx, Vy, nibble`, Dxyn (R101). -/
  | drw (x y n : Nibble)
  /-- `SKP Vx`, Ex9E (R129). -/
  | skp (x : Nibble)
  /-- `SKNP Vx`, ExA1 (R130). -/
  | sknp (x : Nibble)
  /-- `LD Vx, DT`, Fx07 (R200). -/
  | ldVxDT (x : Nibble)
  /-- `LD Vx, K`, Fx0A (R201). -/
  | ldVxK (x : Nibble)
  /-- `LD DT, Vx`, Fx15 (R203). -/
  | ldDTVx (x : Nibble)
  /-- `LD ST, Vx`, Fx18 (R204). -/
  | ldSTVx (x : Nibble)
  /-- `ADD I, Vx`, Fx1E (R181). -/
  | addI (x : Nibble)
  /-- `LD F, Vx`, Fx29 (R182). -/
  | ldF (x : Nibble)
  /-- `LD B, Vx`, Fx33 (R184). -/
  | ldB (x : Nibble)
  /-- `LD [I], Vx`, Fx55 (R185). -/
  | storeRegs (x : Nibble)
  /-- `LD Vx, [I]`, Fx65 (R186). -/
  | loadRegs (x : Nibble)
  deriving DecidableEq, Repr

end Sys2Proof
end

