-- ==== Sys2Proof/WellFormed.lean ====
section
/-! DEFINITION. Well-formedness. An `Instr` needs no range check of its own: every operand is a field of exactly its
width, and "no register number is reserved or illegal" (30_encoding.md rule R73). What can be ill-formed is a WORD: the
unknown space of rule R81 is stated here by that rule's own four bullets, independently of the decoder. `Instr.canonical`
says which terms are the spelling an assembler writes (rules R80 and R85); the other terms are executed just the same. -/

namespace Sys2Proof

/-- The class of a word, bits 15..12 (R71). -/
def wordCls (w : Word) : Nibble := w.extractLsb' 12 4
/-- The low nibble of a word, the class 0x0 and 0x8 sub-field (R71). -/
def wordLowNibble (w : Word) : Nibble := w.extractLsb' 0 4
/-- The low byte of a word, the class 0xE and 0xF sub-field (R71). -/
def wordLowByte (w : Word) : Byte := w.extractLsb' 0 8

/-- Class 0x0 holds only n = 0x0 and n = 0xE (R81, first bullet). -/
def class0Ok (w : Word) : Bool :=
  wordCls w != 0x0#4 || wordLowNibble w == 0x0#4 || wordLowNibble w == 0xE#4

/-- Class 0x8 holds only n = 0x0 .. 0x7 and n = 0xE (R81, second bullet). -/
def class8Ok (w : Word) : Bool :=
  wordCls w != 0x8#4 ||
    !([0x8#4, 0x9#4, 0xA#4, 0xB#4, 0xC#4, 0xD#4, 0xF#4].contains (wordLowNibble w))

/-- Class 0xE holds only nn = 0x9E and nn = 0xA1 (R81, third bullet). -/
def classEOk (w : Word) : Bool :=
  wordCls w != 0xE#4 || wordLowByte w == 0x9E#8 || wordLowByte w == 0xA1#8

/-- Class 0xF holds only nine values of nn (R81, fourth bullet). -/
def classFOk (w : Word) : Bool :=
  wordCls w != 0xF#4 ||
    [0x07#8, 0x0A#8, 0x15#8, 0x18#8, 0x1E#8, 0x29#8, 0x33#8, 0x55#8, 0x65#8].contains (wordLowByte w)

/-- The word is one of the 34 instructions, not an unknown opcode (R81). -/
def wordWellFormed (w : Word) : Bool :=
  class0Ok w && class8Ok w && classEOk w && classFOk w

/-- The canonical spelling: ignored bits as the table of R85 writes them (00E0, 00EE, n = 0, y = 0). -/
def Instr.canonical : Instr → Bool
  | .cls u => u == 0x0E#8
  | .ret u => u == 0x0E#8
  | .seReg _ _ u => u == 0x0#4
  | .sneReg _ _ u => u == 0x0#4
  | .shr _ u => u == 0x0#4
  | .shl _ u => u == 0x0#4
  | .jp _ | .call _ | .seByte _ _ | .sneByte _ _ | .ldByte _ _ | .addByte _ _ | .ldReg _ _ | .orReg _ _
  | .andReg _ _ | .xorReg _ _ | .addReg _ _ | .sub _ _ | .subn _ _ | .ldI _ | .jpV0 _ | .rnd _ _
  | .drw _ _ _ | .skp _ | .sknp _ | .ldVxDT _ | .ldVxK _ | .ldDTVx _ | .ldSTVx _ | .addI _ | .ldF _
  | .ldB _ | .storeRegs _ | .loadRegs _ => true

end Sys2Proof
end

