-- ==== Sys2Proof/Decode.lean ====
section
/-! DEFINITION. The decoder and the encoder (30_encoding.md rules R70 to R84). Decoding is two levels (R74): the class
first, then a sub-field for the classes 0x0, 0x8, 0xE and 0xF. It is "a pure, total function from the 16-bit word to a
tagged instruction value: one of the 34 instructions ... or `Unknown(w)`". -/

namespace Sys2Proof

/-- Field `cls`, w[15:12] (R71). -/
def fieldCls (w : Word) : Nibble := w.extractLsb' 12 4
/-- Field `x`, w[11:8] (R71). -/
def fieldX (w : Word) : Nibble := w.extractLsb' 8 4
/-- Field `y`, w[7:4] (R71). -/
def fieldY (w : Word) : Nibble := w.extractLsb' 4 4
/-- Field `n`, w[3:0] (R71). -/
def fieldN (w : Word) : Nibble := w.extractLsb' 0 4
/-- Field `nn`, w[7:0] (R71). -/
def fieldNN (w : Word) : Byte := w.extractLsb' 0 8
/-- Field `nnn`, w[11:0] (R71). -/
def fieldNNN (w : Word) : Addr := w.extractLsb' 0 12
/-- Bits w[11:4], which class 0x0 does not examine (R76). -/
def fieldU (w : Word) : Byte := w.extractLsb' 4 8

/-- What decoding a word gives (R74): an instruction, or the word itself, rejected by name as unknown (R81). -/
inductive Decoded where
  | instr (i : Instr)
  | unknown (w : Word)
  deriving DecidableEq, Repr

/-- Class 0x0, second level on `n` (R76). -/
def decodeClass0 (w : Word) : Decoded :=
  match (fieldN w).toNat with
  | 0x0 => .instr (.cls (fieldU w))
  | 0xE => .instr (.ret (fieldU w))
  | _ => .unknown w

/-- Class 0x8, second level on `n` (R77). -/
def decodeClass8 (w : Word) : Decoded :=
  match (fieldN w).toNat with
  | 0x0 => .instr (.ldReg (fieldX w) (fieldY w))
  | 0x1 => .instr (.orReg (fieldX w) (fieldY w))
  | 0x2 => .instr (.andReg (fieldX w) (fieldY w))
  | 0x3 => .instr (.xorReg (fieldX w) (fieldY w))
  | 0x4 => .instr (.addReg (fieldX w) (fieldY w))
  | 0x5 => .instr (.sub (fieldX w) (fieldY w))
  | 0x6 => .instr (.shr (fieldX w) (fieldY w))
  | 0x7 => .instr (.subn (fieldX w) (fieldY w))
  | 0xE => .instr (.shl (fieldX w) (fieldY w))
  | _ => .unknown w

/-- Class 0xE, second level on `nn` (R78). -/
def decodeClassE (w : Word) : Decoded :=
  match (fieldNN w).toNat with
  | 0x9E => .instr (.skp (fieldX w))
  | 0xA1 => .instr (.sknp (fieldX w))
  | _ => .unknown w

/-- Class 0xF, second level on `nn` (R79). -/
def decodeClassF (w : Word) : Decoded :=
  match (fieldNN w).toNat with
  | 0x07 => .instr (.ldVxDT (fieldX w))
  | 0x0A => .instr (.ldVxK (fieldX w))
  | 0x15 => .instr (.ldDTVx (fieldX w))
  | 0x18 => .instr (.ldSTVx (fieldX w))
  | 0x1E => .instr (.addI (fieldX w))
  | 0x29 => .instr (.ldF (fieldX w))
  | 0x33 => .instr (.ldB (fieldX w))
  | 0x55 => .instr (.storeRegs (fieldX w))
  | 0x65 => .instr (.loadRegs (fieldX w))
  | _ => .unknown w

/-- The decoder, first level on the class (R75). -/
def decode (w : Word) : Decoded :=
  match (fieldCls w).toNat with
  | 0x0 => decodeClass0 w
  | 0x1 => .instr (.jp (fieldNNN w))
  | 0x2 => .instr (.call (fieldNNN w))
  | 0x3 => .instr (.seByte (fieldX w) (fieldNN w))
  | 0x4 => .instr (.sneByte (fieldX w) (fieldNN w))
  | 0x5 => .instr (.seReg (fieldX w) (fieldY w) (fieldN w))
  | 0x6 => .instr (.ldByte (fieldX w) (fieldNN w))
  | 0x7 => .instr (.addByte (fieldX w) (fieldNN w))
  | 0x8 => decodeClass8 w
  | 0x9 => .instr (.sneReg (fieldX w) (fieldY w) (fieldN w))
  | 0xA => .instr (.ldI (fieldNNN w))
  | 0xB => .instr (.jpV0 (fieldNNN w))
  | 0xC => .instr (.rnd (fieldX w) (fieldNN w))
  | 0xD => .instr (.drw (fieldX w) (fieldY w) (fieldN w))
  | 0xE => decodeClassE w
  | _ => decodeClassF w

/-- The word of two consecutive bytes, big-endian (20_memory.md rule R55). -/
def wordOfBytes (hi lo : Byte) : Word := hi ++ lo
/-- The byte at the lower address, w[15:8] (R55). -/
def hiByte (w : Word) : Byte := w.extractLsb' 8 8
/-- The byte at the higher address, w[7:0] (R55). -/
def loByte (w : Word) : Byte := w.extractLsb' 0 8

/-- What decoding a list of bytes gives: an instruction or an unknown word with the bytes after it, or too few bytes. -/
inductive DecodedBytes where
  | instr (i : Instr) (rest : List Byte)
  | unknown (w : Word) (rest : List Byte)
  | truncated (bytes : List Byte)
  deriving DecidableEq, Repr

/-- Decode the first two bytes of a list: every instruction is exactly 2 bytes (R70). -/
def decodeBytes : List Byte → DecodedBytes
  | hi :: lo :: rest =>
    match decode (wordOfBytes hi lo) with
    | .instr i => .instr i rest
    | .unknown w => .unknown w rest
  | short => .truncated short

/-- The encoder: an instruction's word, written from the patterns of opcode_table.json and rules R75 to R80. -/
def encode : Instr → Word
  | .cls u => 0x0#4 ++ u ++ 0x0#4
  | .ret u => 0x0#4 ++ u ++ 0xE#4
  | .jp nnn => 0x1#4 ++ nnn
  | .call nnn => 0x2#4 ++ nnn
  | .seByte x nn => 0x3#4 ++ x ++ nn
  | .sneByte x nn => 0x4#4 ++ x ++ nn
  | .seReg x y u => 0x5#4 ++ x ++ y ++ u
  | .ldByte x nn => 0x6#4 ++ x ++ nn
  | .addByte x nn => 0x7#4 ++ x ++ nn
  | .ldReg x y => 0x8#4 ++ x ++ y ++ 0x0#4
  | .orReg x y => 0x8#4 ++ x ++ y ++ 0x1#4
  | .andReg x y => 0x8#4 ++ x ++ y ++ 0x2#4
  | .xorReg x y => 0x8#4 ++ x ++ y ++ 0x3#4
  | .addReg x y => 0x8#4 ++ x ++ y ++ 0x4#4
  | .sub x y => 0x8#4 ++ x ++ y ++ 0x5#4
  | .shr x u => 0x8#4 ++ x ++ u ++ 0x6#4
  | .subn x y => 0x8#4 ++ x ++ y ++ 0x7#4
  | .shl x u => 0x8#4 ++ x ++ u ++ 0xE#4
  | .sneReg x y u => 0x9#4 ++ x ++ y ++ u
  | .ldI nnn => 0xA#4 ++ nnn
  | .jpV0 nnn => 0xB#4 ++ nnn
  | .rnd x nn => 0xC#4 ++ x ++ nn
  | .drw x y n => 0xD#4 ++ x ++ y ++ n
  | .skp x => 0xE#4 ++ x ++ 0x9E#8
  | .sknp x => 0xE#4 ++ x ++ 0xA1#8
  | .ldVxDT x => 0xF#4 ++ x ++ 0x07#8
  | .ldVxK x => 0xF#4 ++ x ++ 0x0A#8
  | .ldDTVx x => 0xF#4 ++ x ++ 0x15#8
  | .ldSTVx x => 0xF#4 ++ x ++ 0x18#8
  | .addI x => 0xF#4 ++ x ++ 0x1E#8
  | .ldF x => 0xF#4 ++ x ++ 0x29#8
  | .ldB x => 0xF#4 ++ x ++ 0x33#8
  | .storeRegs x => 0xF#4 ++ x ++ 0x55#8
  | .loadRegs x => 0xF#4 ++ x ++ 0x65#8

/-- The two bytes of a word in the order memory holds them (R55). -/
def wordBytes (w : Word) : List Byte := [hiByte w, loByte w]

/-- The word whose table bits are `w`, of which the lowest `nbits` count and every higher bit is 0. -/
def tableWord (nbits w : Nat) : Word := BitVec.ofNat 16 (w % 2 ^ nbits)

/-- The instruction the decoder reads from a word numbered as opcode_table.json numbers it, laid out in bytes as
memory holds it; none where the decoder answers unknown. -/
def decodeTableWord (nbits w : Nat) : Option Instr :=
  match decodeBytes (wordBytes (tableWord nbits w)) with
  | .instr i _ => some i
  | .unknown _ _ => none
  | .truncated _ => none

end Sys2Proof
end

