-- ==== Sys2Proof/Config.lean ====
section
/-! DEFINITION. The parameters of 00_scope.md rule R8, each at the value this block takes, and the one value the spec
leaves open: the random byte (93_implementation_defined.md U1). -/

namespace Sys2Proof.Config

/-- MEM_SIZE: addresses 0 .. 4095 exist (R8, R50). -/
abbrev memSize : Nat := 4096

/-- LOAD_ADDR: where the program image is loaded, and PC after reset (R8, R41). -/
abbrev loadAddr : Word := 0x200#16

/-- STACK_DEPTH: entries of the call stack (R8). -/
abbrev stackDepth : Nat := 16

/-- FB_W: framebuffer width in pixels (R8). -/
abbrev fbWidth : Nat := 64

/-- FB_H: framebuffer height in pixels (R8). -/
abbrev fbHeight : Nat := 32

/-- FLAG_REG: the number of the flag register VF (R8, R23). -/
abbrev flagReg : Nibble := 0xF#4

/-- FONT_BASE: the address of glyph 0 (R8, R59). -/
abbrev fontBase : Nat := 0

/-- GLYPH_BYTES: bytes of one font glyph (R8, R183). -/
abbrev glyphBytes : Nat := 5

/-- FREE VALUE (assumption 2). The byte on the `rand_byte` input in a step for which the host's input queue says
nothing: the n-th such draw reads `freeRandByte n`. No body, so nothing about it can be proved: "rnd is a free 8-bit
draw of each step, under no law" (93_implementation_defined.md U1). -/
opaque freeRandByte : Nat → Byte

end Sys2Proof.Config
end

