-- ==== Sys2Proof/Machine/State.lean ====
section
/-! DEFINITION. The machine's state: every item of 10_state.md rule R20, the diagnostic outputs of 60_exceptions.md rule
R227, and three fields of the model's own (what the host has still to deliver, and the random input). Then the reset
state (R41) and the reasons a step could stop. -/

namespace Sys2Proof.Machine

/-- The execution mode (R33). Its 2-bit code is `Mode.code` in Machine/Observe.lean. -/
inductive Mode where
  | running
  | waitingForKey
  | halted
  deriving DecidableEq, Repr

/-- The fault kinds (R35, 60_exceptions.md rule R220). -/
inductive FaultKind where
  | none
  | memoryFault
  | stackOverflow
  | stackUnderflow
  deriving DecidableEq, Repr

/-- The fault record (R35). -/
structure FaultRecord where
  kind : FaultKind
  pc : Word
  word : Word
  wordValid : Bool
  addr : Word
  addrValid : Bool
  deriving DecidableEq, Repr

/-- The fault record after reset: kind None, all fields 0 (R41). -/
def FaultRecord.clear : FaultRecord := ⟨.none, 0, 0, false, 0, false⟩

/-- The diagnostic outputs `diag_unknown`, `diag_pc`, `diag_word` (60_exceptions.md rules R227 and R241). "The diagnostic
is an output event, not state": these three are output registers that no instruction reads (assumption 3). -/
structure DiagPort where
  pulse : Bool
  pc : Word
  word : Word
  deriving DecidableEq, Repr

/-- The `rand_byte` input as the present step sees it: a byte the host's input queue gives, or a free value
(assumption 2). -/
inductive RandInput where
  | driven (b : Byte)
  | free
  deriving DecidableEq, Repr

/-- The input ports sampled at one rising clock edge (60_exceptions.md rule R241). The observation addresses `obs_addr`,
`fb_row` and `fb_col` are arguments of the functions in Machine/Observe.lean. -/
structure PortSample where
  rst : Bool
  step : Bool
  randByte : Byte
  tick : Bool
  keyEvt : Bool
  keyDown : Bool
  keyIdx : Nibble
  loadWe : Bool
  loadAddr : Addr
  loadData : Byte
  deriving DecidableEq, Repr

/-- The framebuffer: 32 rows of 64 pixels, `fb[r][c]`, on when true (R36). -/
abbrev Framebuffer := Vector (Vector Bool 64) 32

/-- The framebuffer with every pixel off. -/
def Framebuffer.blank : Framebuffer := Vector.replicate 32 (Vector.replicate 64 false)

/-- Memory as a list of (address, byte) pairs, addresses strictly rising, no entry equal to what an unlisted address
reads as. Machine/Ops.lean gives its operations and `Memory.wf` (assumption 7). -/
abbrev Memory := List Host.Cell

/-- The state. The first thirteen fields are the items of R20. -/
structure State where
  /-- General registers V[0]..V[15]; V[15] is the flag register VF (R21, R23). -/
  v : Vector Byte 16
  /-- Index register I (R27). -/
  i : Word
  /-- Program counter (R24). -/
  pc : Word
  /-- Number of entries on the call stack, 0..16 (R29). -/
  sp : Fin 17
  /-- Call stack (R30). -/
  stack : Vector Word 16
  /-- Delay timer (R31). -/
  dt : Byte
  /-- Sound timer (R32). -/
  st : Byte
  /-- Memory, 4096 bytes (R38). -/
  mem : Memory
  /-- Framebuffer (R36). -/
  fb : Framebuffer
  /-- Keys, true when down (R37). -/
  keys : Vector Bool 16
  /-- Execution mode (R33). -/
  mode : Mode
  /-- The register a key wait will write (R34). -/
  waitreg : Nibble
  /-- Fault record (R35). -/
  fault : FaultRecord
  /-- Diagnostic outputs (60_exceptions.md rule R227). -/
  diag : DiagPort
  /-- MODEL'S OWN: what the host will drive at the coming clock edges, the next edge first; where it is empty, the next
  edge is a Step event alone (assumption 1). -/
  inputs : List PortSample
  /-- MODEL'S OWN: the random input of the present step (assumption 2). -/
  rand : RandInput
  /-- MODEL'S OWN: how many free random bytes have been drawn (assumption 2). -/
  draws : Nat
  deriving DecidableEq, Repr

/-- The state right after reset, which is also the power-on state (R41, R42). Memory lists nothing: an unlisted address
reads as the reset contents, the font and zeros. -/
def State.reset : State where
  v := Vector.replicate 16 0
  i := 0
  pc := Config.loadAddr
  sp := 0
  stack := Vector.replicate 16 0
  dt := 0
  st := 0
  mem := []
  fb := Framebuffer.blank
  keys := Vector.replicate 16 false
  mode := .running
  waitreg := 0
  fault := FaultRecord.clear
  diag := ⟨false, 0, 0⟩
  inputs := []
  rand := .free
  draws := 0

/-- Reasons the machine would stop outside the spec. There are none: every fault of the closed taxonomy (60_exceptions.md
rule R220) leads to the state Halted with its fault record (R224), which is a next state, and "the block's rules still
give a defined result for every sequence of events" (R248). Safe (assumption 4). -/
inductive Fault where
  deriving DecidableEq, Repr

/-- Reasons an instruction has no meaning. -/
inductive Refusal where
  /-- Raised only by an arm of `exec` whose instruction is not modelled yet; no arm does so. Safe. -/
  | notModelled (mnemonic : String)
  deriving DecidableEq, Repr

/-- What a step or an instruction answers. -/
abbrev Result := Host.Outcome State Fault Refusal

end Sys2Proof.Machine
end

