-- ==== Sys2Proof/Machine/Ops.lean ====
section
/-! DEFINITION. The named operations over memory, registers, program counter, call stack, framebuffer and keys
(00_scope.md rules R12 to R15), and fault entry as one shared operation (60_exceptions.md rules R224 and R225). There is
no return from a fault: "there is no trap mechanism" (R231); only a Reset event leaves Halted (Machine/Events.lean). -/

namespace Sys2Proof.Machine

/-! ## Memory -/

/-- The built-in font: 16 glyphs of 5 rows (43_index_memory.md rule R183). -/
def fontTable : List Byte :=
  [0xF0, 0x90, 0x90, 0x90, 0xF0, 0x20, 0x60, 0x20, 0x20, 0x70,
   0xF0, 0x10, 0xF0, 0x80, 0xF0, 0xF0, 0x10, 0xF0, 0x10, 0xF0] ++
  [0x90, 0x90, 0xF0, 0x10, 0x10, 0xF0, 0x80, 0xF0, 0x10, 0xF0,
   0xF0, 0x80, 0xF0, 0x90, 0xF0, 0xF0, 0x10, 0x20, 0x40, 0x40] ++
  [0xF0, 0x90, 0xF0, 0x90, 0xF0, 0xF0, 0x90, 0xF0, 0x10, 0xF0,
   0xF0, 0x90, 0xF0, 0x90, 0x90, 0xE0, 0x90, 0xE0, 0x90, 0xE0] ++
  [0xF0, 0x80, 0x80, 0x80, 0xF0, 0xE0, 0x90, 0x90, 0x90, 0xE0,
   0xF0, 0x80, 0xF0, 0x80, 0xF0, 0xF0, 0x80, 0xF0, 0x80, 0x80]

/-- What an unlisted address reads as: the reset contents, the font at FONT_BASE and zero elsewhere (10_state.md rule
R41, 70_reset_and_hazards.md rules R260 and R261). -/
def resetByte (a : Nat) : Byte :=
  if Config.fontBase ≤ a then fontTable.getD (a - Config.fontBase) 0 else 0

/-- The byte at address `a`. -/
def Memory.read : Memory → Nat → Byte
  | [], a => resetByte a
  | (k, b) :: rest, a => if k = a then b else Memory.read rest a

/-- Put byte `b` at address `a`, keeping the addresses rising and listing no byte that is the reset content. -/
def Memory.insert : Memory → Nat → Byte → Memory
  | [], a, b => if b = resetByte a then [] else [(a, b)]
  | (k, c) :: rest, a, b =>
    if a < k then (if b = resetByte a then (k, c) :: rest else (a, b) :: (k, c) :: rest)
    else if a = k then (if b = resetByte a then rest else (a, b) :: rest)
    else (k, c) :: Memory.insert rest a b

/-- Store byte `b` at address `a`. An address outside memory holds nothing; every instruction checks its addresses
first and faults (20_memory.md rule R53), so that case is never taken by one. -/
def Memory.write (m : Memory) (a : Nat) (b : Byte) : Memory :=
  if a < Config.memSize then Memory.insert m a b else m

/-- Store a run of bytes at ascending addresses from `a` (20_memory.md rule R58). -/
def Memory.writeRun (m : Memory) (a : Nat) : List Byte → Memory
  | [] => m
  | b :: rest => Memory.writeRun (m.write a b) (a + 1) rest

/-- Every listed address is at least `lo`, below MEM_SIZE, above the one before, and holds another byte than at reset. -/
def Memory.wfFrom (lo : Nat) : Memory → Bool
  | [] => true
  | (k, b) :: rest =>
    decide (lo ≤ k) && decide (k < Config.memSize) && decide (b ≠ resetByte k) && Memory.wfFrom (k + 1) rest

/-- The canonical form of memory: addresses strictly rising and below MEM_SIZE, no entry equal to the reset content. -/
def Memory.wf (m : Memory) : Bool := Memory.wfFrom 0 m

/-- The lowest address of `a .. a+n-1` that is out of range, if any (20_memory.md rules R53 and R54; the form
`max(I, MEM_SIZE)` is that of 43_index_memory.md rule R185). -/
def firstOutOfRange (a n : Nat) : Option Nat :=
  if n = 0 ∨ a + n ≤ Config.memSize then none else some (max a Config.memSize)

/-! ## Registers, program counter, keys -/

/-- Read general register V[x] (R21). -/
def State.readV (s : State) (x : Nibble) : Byte := s.v[x.toNat]'(x.isLt)

/-- Write general register V[x] (R21): no register is hard-wired. -/
def State.writeV (s : State) (x : Nibble) (b : Byte) : State :=
  { s with v := s.v.set x.toNat b x.isLt }

/-- Write V[x] with a result and then VF with a flag, last (42_alu.md rule R163). -/
def State.writeWithFlag (s : State) (x : Nibble) (result : Byte) (flag : Bool) : State :=
  (s.writeV x result).writeV Config.flagReg (if flag then 1 else 0)

/-- Is key `k` down? (R37) -/
def State.keyDown (s : State) (k : Nibble) : Bool := s.keys[k.toNat]'(k.isLt)

/-- Set key `k` down or up (60_exceptions.md rule R244). -/
def State.setKey (s : State) (k : Nibble) (down : Bool) : State :=
  { s with keys := s.keys.set k.toNat down k.isLt }

/-- The advance of PC by 2 that the step makes before dispatch (41_flow.md rule R120). -/
def State.advance (s : State) : State := { s with pc := s.pc + 2 }

/-- Skip: PC moves a further 2 when the condition holds (41_flow.md rule R131). -/
def State.skipIf (s : State) (c : Bool) : State := if c then { s with pc := s.pc + 2 } else s

/-! ## Call stack -/

/-- `Push(v)` (00_scope.md rule R14); none: StackOverflow. -/
def State.push (s : State) (w : Word) : Option State :=
  if h : s.sp.val < 16 then
    some { s with stack := s.stack.set s.sp.val w h, sp := ⟨s.sp.val + 1, Nat.succ_lt_succ h⟩ }
  else none

/-- `Pop()` (00_scope.md rule R14): the popped entry and the state after; none: StackUnderflow. The entry keeps its
value (41_flow.md rule R121). -/
def State.pop (s : State) : Option (Word × State) :=
  if h : s.sp.val = 0 then none
  else
    have hlt : s.sp.val - 1 < 16 :=
      Nat.lt_of_lt_of_le (Nat.sub_lt (Nat.pos_of_ne_zero h) Nat.one_pos) (Nat.le_of_lt_succ s.sp.isLt)
    some (s.stack[s.sp.val - 1]'hlt, { s with sp := ⟨s.sp.val - 1, Nat.lt_succ_of_lt hlt⟩ })

/-! ## Framebuffer -/

/-- Pixel `fb[r][c]`; off outside the grid (R36). -/
def Framebuffer.pixel (fb : Framebuffer) (r c : Nat) : Bool :=
  if h : r < 32 ∧ c < 64 then (fb[r]'h.1)[c]'h.2 else false

/-- Set pixel `fb[r][c]`; nothing outside the grid. -/
def Framebuffer.setPixel (fb : Framebuffer) (r c : Nat) (on : Bool) : Framebuffer :=
  if h : r < 32 ∧ c < 64 then fb.set r ((fb[r]'h.1).set c on h.2) h.1 else fb

/-! ## Fault entry -/

/-- Take a fault (60_exceptions.md rule R224), in the state at the start of the step: only the mode and the fault record
change. "`pc` is always ipc" (R225), and the PC of that state is ipc. `word` and `addr` are what the record holds where
it holds them. -/
def State.raise (s : State) (kind : FaultKind) (word : Option Word) (addr : Option Nat) : State :=
  { s with
    mode := .halted
    fault :=
      { kind := kind
        pc := s.pc
        word := word.getD 0
        wordValid := word.isSome
        addr := BitVec.ofNat 16 (addr.getD 0)
        addrValid := addr.isSome } }

/-- A MemoryFault of the instruction `i` on address `a` (R225, second row). -/
def State.memoryFault (s : State) (i : Instr) (a : Nat) : State :=
  s.raise .memoryFault (some (encode i)) (some a)

/-- The fetch of the word at PC, or the address it faults on (20_memory.md rule R55). -/
def State.fetch (s : State) : Except Nat Word :=
  match firstOutOfRange s.pc.toNat 2 with
  | some a => .error a
  | none => .ok (wordOfBytes (s.mem.read s.pc.toNat) (s.mem.read (s.pc.toNat + 1)))

end Sys2Proof.Machine
end

