-- ==== Sys2Proof/Machine/Operands.lean ====
section
/-! DEFINITION. The operand forms (30_encoding.md rules R72 and R73, 43_index_memory.md rule R187): immediates, masked
key and font operands, register ranges, the effective address I + k, the BCD digits and the sprite rows. -/

namespace Sys2Proof.Machine

/-- An immediate address, zero-extended to 16 bits (R72). -/
def addrOperand (nnn : Addr) : Word := nnn.setWidth 16

/-- A key operand or a font digit: the low nibble of V[x] (R73). -/
def State.lowNibble (s : State) (x : Nibble) : Nibble := (s.readV x).extractLsb' 0 4

/-- The effective address I + k, an unbounded integer that does not wrap (43_index_memory.md rule R187). -/
def State.ea (s : State) (k : Nat) : Nat := s.i.toNat + k

/-- The register range V[0]..V[x] as bytes in ascending order (R73, 43_index_memory.md rule R185). -/
def State.regRange (s : State) (x : Nibble) : List Byte :=
  (List.range (x.toNat + 1)).map (fun k => s.readV (BitVec.ofNat 4 k))

/-- The `n` bytes of memory from address `a`, ascending (20_memory.md rule R58). -/
def Memory.readRun (m : Memory) (a n : Nat) : List Byte :=
  (List.range n).map (fun k => m.read (a + k))

/-- Write bytes to V[k], V[k+1], ... (43_index_memory.md rule R186). -/
def State.writeRegs (s : State) (k : Nat) : List Byte → State
  | [] => s
  | b :: rest => State.writeRegs (s.writeV (BitVec.ofNat 4 k) b) (k + 1) rest

/-- The address of the font glyph for a digit (43_index_memory.md rule R182). -/
def glyphAddr (d : Nibble) : Word := BitVec.ofNat 16 (Config.fontBase + Config.glyphBytes * d.toNat)

/-- The three decimal digits of a byte, hundreds first (43_index_memory.md rule R184). -/
def bcdDigits (b : Byte) : List Byte :=
  [BitVec.ofNat 8 (b.toNat / 100), BitVec.ofNat 8 (b.toNat / 10 % 10), BitVec.ofNat 8 (b.toNat % 10)]

/-- The byte on the random input of this step (42_alu.md rule R161): what the host drives, or the free value. -/
def State.randByte (s : State) : Byte :=
  match s.rand with
  | .driven b => b
  | .free => Config.freeRandByte s.draws

/-- A free random byte is used once: the draw counter moves on (assumption 2). -/
def State.afterDraw (s : State) : State :=
  match s.rand with
  | .driven _ => s
  | .free => { s with draws := s.draws + 1 }

end Sys2Proof.Machine
end

