-- ==== Sys2Proof/Machine/Alu.lean ====
section
/-! DEFINITION. The register and arithmetic family (42_alu.md): loads, immediate add, the class 0x8 operations and the
random byte. Operands are read before anything is written, and VF is written last (R163). -/

namespace Sys2Proof.Machine

/-- `LD Vx, byte` (R150). -/
def execLdByte (x : Nibble) (nn : Byte) (s : State) : Result :=
  .next (s.advance.writeV x nn)

/-- `ADD Vx, byte` (R151): no flag. -/
def execAddByte (x : Nibble) (nn : Byte) (s : State) : Result :=
  .next (s.advance.writeV x (addResult (s.readV x) nn))

/-- `LD Vx, Vy` (R152). -/
def execLdReg (x y : Nibble) (s : State) : Result :=
  .next (s.advance.writeV x (s.readV y))

/-- `OR Vx, Vy` (R153). -/
def execOrReg (x y : Nibble) (s : State) : Result :=
  .next (s.advance.writeV x (s.readV x ||| s.readV y))

/-- `AND Vx, Vy` (R154). -/
def execAndReg (x y : Nibble) (s : State) : Result :=
  .next (s.advance.writeV x (s.readV x &&& s.readV y))

/-- `XOR Vx, Vy` (R155). -/
def execXorReg (x y : Nibble) (s : State) : Result :=
  .next (s.advance.writeV x (s.readV x ^^^ s.readV y))

/-- `ADD Vx, Vy` (R156): VF = carry. -/
def execAddReg (x y : Nibble) (s : State) : Result :=
  .next (s.advance.writeWithFlag x (addResult (s.readV x) (s.readV y)) (addCarry (s.readV x) (s.readV y)))

/-- `SUB Vx, Vy` (R157): Vx minus Vy, VF = not-borrow. -/
def execSub (x y : Nibble) (s : State) : Result :=
  .next (s.advance.writeWithFlag x (subResult (s.readV x) (s.readV y)) (subNotBorrow (s.readV x) (s.readV y)))

/-- `SUBN Vx, Vy` (R159): Vy minus Vx, VF = not-borrow. -/
def execSubn (x y : Nibble) (s : State) : Result :=
  .next (s.advance.writeWithFlag x (subResult (s.readV y) (s.readV x)) (subNotBorrow (s.readV y) (s.readV x)))

/-- `SHR Vx {, Vy}` (R158): Vx in place, the y field is ignored. -/
def execShr (x _u : Nibble) (s : State) : Result :=
  .next (s.advance.writeWithFlag x (shrResult (s.readV x)) (shrOut (s.readV x)))

/-- `SHL Vx {, Vy}` (R160): Vx in place, the y field is ignored. -/
def execShl (x _u : Nibble) (s : State) : Result :=
  .next (s.advance.writeWithFlag x (shlResult (s.readV x)) (shlOut (s.readV x)))

/-- `RND Vx, byte` (R161): the random byte is an input, free where the host gives none (assumption 2). -/
def execRnd (x : Nibble) (nn : Byte) (s : State) : Result :=
  .next (s.advance.afterDraw.writeV x (s.randByte &&& nn))

end Sys2Proof.Machine
end

