-- ==== Sys2Proof/Machine/Display.lean ====
section
/-! DEFINITION. The display family (40_display.md): CLS and DRW, with the XOR blitter and the collision detector. -/

namespace Sys2Proof.Machine

/-- `CLS` (R100). -/
def execCls (_u : Byte) (s : State) : Result :=
  .next { s.advance with fb := Framebuffer.blank }

/-- One bit of a sprite at row `py`, column `px` (R104): a column past the right edge is not drawn, a 1 bit inverts its
pixel, and turning an on pixel off is a collision. The pair is the framebuffer and the collision so far. -/
def drawBit (bit : Bool) (py px : Nat) (acc : Framebuffer × Bool) : Framebuffer × Bool :=
  if px ≥ Config.fbWidth then acc
  else if bit then
    (acc.1.setPixel py px (!(acc.1.pixel py px)), acc.2 || acc.1.pixel py px)
  else acc

/-- One row of a sprite from column `x0` (R104): 8 pixels, bit 7 leftmost. -/
def drawRow (row : Byte) (x0 py : Nat) (acc : Framebuffer × Bool) : Framebuffer × Bool :=
  (List.range 8).foldl (fun a c => drawBit (row.getLsbD (7 - c)) py (x0 + c) a) acc

/-- The blit of sprite rows from row `py` down (R104): a row past the bottom edge is not drawn. -/
def blit : List Byte → Nat → Nat → Framebuffer × Bool → Framebuffer × Bool
  | [], _, _, acc => acc
  | row :: rest, x0, py, acc =>
    blit rest x0 (py + 1) (if py ≥ Config.fbHeight then acc else drawRow row x0 py acc)

/-- `DRW Vx, Vy, nibble` (R101 to R106): every row is read and checked first (R102), the start coordinate wraps (R103),
the rows are XORed in (R104), and VF gets the collision flag, last (R105). -/
def execDrw (x y n : Nibble) (s : State) : Result :=
  match firstOutOfRange (s.ea 0) n.toNat with
  | some a => .next (s.memoryFault (.drw x y n) a)
  | none =>
    let x0 := (s.readV x).toNat % Config.fbWidth
    let y0 := (s.readV y).toNat % Config.fbHeight
    let drawn := blit (s.mem.readRun (s.ea 0) n.toNat) x0 y0 (s.fb, false)
    .next (({ s.advance with fb := drawn.1 }).writeV Config.flagReg (if drawn.2 then 1 else 0))

end Sys2Proof.Machine
end

