-- ==== Sys2Proof/Machine/Flow.lean ====
section
/-! DEFINITION. The control-flow family (41_flow.md): return, jumps, call and the six skips. Each meaning is given the
state in which PC is ipc, and makes the advance of rule R120 first (assumption 6). -/

namespace Sys2Proof.Machine

/-- `RET` (R121). -/
def execRet (u : Byte) (s : State) : Result :=
  match s.advance.pop with
  | none => .next (s.raise .stackUnderflow (some (encode (.ret u))) none)
  | some (target, t) => .next { t with pc := target }

/-- `JP addr` (R122). -/
def execJp (nnn : Addr) (s : State) : Result :=
  .next { s with pc := addrOperand nnn }

/-- `CALL addr` (R123): the return address pushed is ipc + 2. -/
def execCall (nnn : Addr) (s : State) : Result :=
  match s.advance.push s.advance.pc with
  | none => .next (s.raise .stackOverflow (some (encode (.call nnn))) none)
  | some t => .next { t with pc := addrOperand nnn }

/-- `JP V0, addr` (R128): a 16-bit sum, not masked. -/
def execJpV0 (nnn : Addr) (s : State) : Result :=
  .next { s with pc := addrOperand nnn + (s.readV 0x0#4).setWidth 16 }

/-- `SE Vx, byte` (R124). -/
def execSeByte (x : Nibble) (nn : Byte) (s : State) : Result :=
  .next (s.advance.skipIf (s.readV x == nn))

/-- `SNE Vx, byte` (R125). -/
def execSneByte (x : Nibble) (nn : Byte) (s : State) : Result :=
  .next (s.advance.skipIf (s.readV x != nn))

/-- `SE Vx, Vy` (R126): the n field is ignored. -/
def execSeReg (x y _u : Nibble) (s : State) : Result :=
  .next (s.advance.skipIf (s.readV x == s.readV y))

/-- `SNE Vx, Vy` (R127): the n field is ignored. -/
def execSneReg (x y _u : Nibble) (s : State) : Result :=
  .next (s.advance.skipIf (s.readV x != s.readV y))

/-- `SKP Vx` (R129). -/
def execSkp (x : Nibble) (s : State) : Result :=
  .next (s.advance.skipIf (s.keyDown (s.lowNibble x)))

/-- `SKNP Vx` (R130). -/
def execSknp (x : Nibble) (s : State) : Result :=
  .next (s.advance.skipIf (!(s.keyDown (s.lowNibble x))))

end Sys2Proof.Machine
end

