-- ==== Sys2Proof/Machine/Index.lean ====
section
/-! DEFINITION. The index register and memory family (43_index_memory.md). An instruction with several accesses checks
every address before it writes anything (R187), and the fault names the lowest address out of range (20_memory.md R54). -/

namespace Sys2Proof.Machine

/-- `LD I, addr` (R180). -/
def execLdI (nnn : Addr) (s : State) : Result :=
  .next { s.advance with i := addrOperand nnn }

/-- `ADD I, Vx` (R181): modulo MEM_SIZE, no flag. -/
def execAddI (x : Nibble) (s : State) : Result :=
  .next { s.advance with i := BitVec.ofNat 16 ((s.i.toNat + (s.readV x).toNat) % Config.memSize) }

/-- `LD F, Vx` (R182). -/
def execLdF (x : Nibble) (s : State) : Result :=
  .next { s.advance with i := glyphAddr (s.lowNibble x) }

/-- `LD B, Vx` (R184). -/
def execLdB (x : Nibble) (s : State) : Result :=
  match firstOutOfRange (s.ea 0) 3 with
  | some a => .next (s.memoryFault (.ldB x) a)
  | none => .next { s.advance with mem := s.mem.writeRun (s.ea 0) (bcdDigits (s.readV x)) }

/-- `LD [I], Vx` (R185). -/
def execStoreRegs (x : Nibble) (s : State) : Result :=
  match firstOutOfRange (s.ea 0) (x.toNat + 1) with
  | some a => .next (s.memoryFault (.storeRegs x) a)
  | none => .next { s.advance with mem := s.mem.writeRun (s.ea 0) (s.regRange x) }

/-- `LD Vx, [I]` (R186). -/
def execLoadRegs (x : Nibble) (s : State) : Result :=
  match firstOutOfRange (s.ea 0) (x.toNat + 1) with
  | some a => .next (s.memoryFault (.loadRegs x) a)
  | none => .next (s.advance.writeRegs 0 (s.mem.readRun (s.ea 0) (x.toNat + 1)))

end Sys2Proof.Machine
end

