-- ==== Sys2Proof/Machine/TimerInput.lean ====
section
/-! DEFINITION. The timer and key-wait family (44_timer_input.md). The resume from a key wait (R202) is a key-down event:
Machine/Events.lean. -/

namespace Sys2Proof.Machine

/-- `LD Vx, DT` (R200). -/
def execLdVxDT (x : Nibble) (s : State) : Result :=
  .next (s.advance.writeV x s.dt)

/-- `LD Vx, K` (R201): the keys are not read; only a later key-down event ends the wait. -/
def execLdVxK (x : Nibble) (s : State) : Result :=
  .next { s.advance with waitreg := x, mode := .waitingForKey }

/-- `LD DT, Vx` (R203). -/
def execLdDTVx (x : Nibble) (s : State) : Result :=
  .next { s.advance with dt := s.readV x }

/-- `LD ST, Vx` (R204). -/
def execLdSTVx (x : Nibble) (s : State) : Result :=
  .next { s.advance with st := s.readV x }

end Sys2Proof.Machine
end

