-- ==== Sys2Proof/Machine/Events.lean ====
section
/-! DEFINITION. The events the host delivers (60_exceptions.md rules R240 to R246) but for the step itself, and the order
in which one clock edge applies them (R242). -/

namespace Sys2Proof.Machine

/-- The events of R240. `step` carries the random input of the step. -/
inductive Event where
  | reset
  | load (a : Addr) (b : Byte)
  | keyDown (k : Nibble)
  | keyUp (k : Nibble)
  | tick
  | step (rnd : RandInput)
  deriving DecidableEq, Repr

/-- A Reset event (70_reset_and_hazards.md rule R260): every item of R20 takes its reset value. What is no item of R20
stays: the model's own three fields, and `diag_pc` and `diag_word`, which only "the next unknown opcode overwrites"
(R227; assumption 3). -/
def State.resetEvent (s : State) : State :=
  { State.reset with diag := s.diag, inputs := s.inputs, rand := s.rand, draws := s.draws }

/-- A Load event (R245, 20_memory.md rule R68): one byte, in every mode; a 12-bit address cannot be out of range. -/
def State.loadEvent (s : State) (a : Addr) (b : Byte) : State :=
  { s with mem := s.mem.write a.toNat b }

/-- A KeyDown event (R244); in WaitingForKey it ends the wait (44_timer_input.md rule R202). -/
def State.keyDownEvent (s : State) (k : Nibble) : State :=
  match s.mode with
  | .waitingForKey => { (s.setKey k true).writeV s.waitreg (k.setWidth 8) with mode := .running }
  | .running => s.setKey k true
  | .halted => s.setKey k true

/-- A KeyUp event (R244). -/
def State.keyUpEvent (s : State) (k : Nibble) : State := s.setKey k false

/-- One timer's part of a tick: down by 1, never below 0 (R233). -/
def countDown (t : Byte) : Byte := if t.toNat = 0 then t else BitVec.ofNat 8 (t.toNat - 1)

/-- A Tick event (R233), in every mode (R234). -/
def State.tickEvent (s : State) : State := { s with dt := countDown s.dt, st := countDown s.st }

/-- The events of one clock edge, in the order of R242: a reset makes the edge ignore its other inputs. -/
def PortSample.events (p : PortSample) : List Event :=
  if p.rst then [.reset]
  else
    (if p.loadWe then [.load p.loadAddr p.loadData] else []) ++
    (if p.keyEvt then [if p.keyDown then .keyDown p.keyIdx else .keyUp p.keyIdx] else []) ++
    (if p.tick then [.tick] else []) ++
    (if p.step then [.step (.driven p.randByte)] else [])

/-- What the coming clock edge applies, and what the host has still to deliver after it: the head of the input queue;
where the queue is empty, a Step event alone, with a free random byte (assumption 1). -/
def State.nextEdge (s : State) : List Event × List PortSample :=
  match s.inputs with
  | [] => ([.step .free], [])
  | p :: rest => (p.events, rest)

/-- What the edge does before its first event: the queue moves on, and the one-cycle pulse `diag_unknown` ends (R227). -/
def State.beginEdge (s : State) : State :=
  { s with inputs := s.nextEdge.2, diag := { s.diag with pulse := false } }

end Sys2Proof.Machine
end

