-- ==== Sys2Proof/Machine/Engine.lean ====
section
/-! DEFINITION. The engine: one Step event (60_exceptions.md rule R243, 41_flow.md rule R120), the effect of any event, and
one clock edge (R242). -/

namespace Sys2Proof.Machine

/-- Execute an unknown opcode (30_encoding.md rule R81): a no-op, PC at ipc + 2, and the diagnostic outputs are given the
address and the word (60_exceptions.md rule R227). -/
def execUnknown (w : Word) (s : State) : Result :=
  .next { s.advance with diag := { pulse := true, pc := s.pc, word := w } }

/-- A MemoryFault during the fetch (60_exceptions.md rule R225, first row): no word was fetched. -/
def fetchFault (a : Nat) (s : State) : Result :=
  .next (s.raise .memoryFault none (some a))

/-- Execute a decoded word. -/
def execDecoded (d : Decoded) (s : State) : Result :=
  match d with
  | .instr i => exec i s
  | .unknown w => execUnknown w s

/-- One instruction cycle in mode Running (R120). -/
def runCycle (s : State) : Result :=
  match s.fetch with
  | .error a => fetchFault a s
  | .ok w => execDecoded (decode w) s

/-- A Step event (R243): one instruction cycle in Running, nothing in WaitingForKey and Halted. The random input is
given for the cycle and ignored otherwise. -/
def stepEvent (rnd : RandInput) (s : State) : Result :=
  match s.mode with
  | .running => runCycle { s with rand := rnd }
  | .waitingForKey => .next s
  | .halted => .next s

/-- The effect of one event (R240). -/
def applyEvent (e : Event) (s : State) : Result :=
  match e with
  | .reset => .next s.resetEvent
  | .load a b => .next (s.loadEvent a b)
  | .keyDown k => .next (s.keyDownEvent k)
  | .keyUp k => .next (s.keyUpEvent k)
  | .tick => .next s.tickEvent
  | .step rnd => stepEvent rnd s

/-- Apply events in order, each to the result of the one before (R242). -/
def applyEvents : List Event → State → Result
  | [], s => .next s
  | e :: rest, s =>
    match applyEvent e s with
    | .next t => applyEvents rest t
    | .fault r => .fault r
    | .refused r => .refused r

/-- One clock edge. -/
def clockEdge (s : State) : Result := applyEvents s.nextEdge.1 s.beginEdge

/-- The state in which the coming edge fetches the word `w` at PC: the word's two bytes at PC and PC + 1 (20_memory.md
rule R55), mode Running with no fault recorded, and no other input pending, so that the edge is a Step event alone. -/
def State.placeWord (s : State) (w : Word) : State :=
  { s with
    mem := s.mem.writeRun s.pc.toNat (wordBytes w)
    mode := .running
    fault := FaultRecord.clear
    inputs := [] }

end Sys2Proof.Machine
end

