-- ==== Sys2Proof/Machine/Step.lean ====
section
/-! DEFINITION. The machine's step: one clock edge (60_exceptions.md rules R240 and R242), and the placing of an
instruction where the step fetches it. -/

namespace Sys2Proof.Machine

/-- One step of the machine is one clock edge: the next entry of the host's input queue, or a Step event alone where the
queue is empty (assumption 1). -/
def step (s : State) : Host.Outcome State Fault Refusal := clockEdge s

/-- `s` with the instruction whose table bits are `w` (the lowest `nbits` of them) where the step fetches its next
instruction. It stands for the host's Load events (70_reset_and_hazards.md rule R264; assumption 8). -/
def State.withFetchWord (s : State) (nbits w : Nat) : State := s.placeWord (tableWord nbits w)

end Sys2Proof.Machine
end

