-- ==== Sys2Proof/Machine/Observe.lean ====
section
/-! DEFINITION. The read-only outputs (10_state.md rule R43, 60_exceptions.md rules R241 and R247, 20_memory.md rule R69):
functions of the state, so that observing changes nothing. The ports that only repeat a field of State (`obs_v`, `obs_i`,
`obs_pc`, `obs_stack`, `obs_dt`, `obs_st`, `obs_waitreg`, `diag_*`, `fault_pc`, ...) are those fields. -/

namespace Sys2Proof.Machine

/-- The 2-bit `mode` output (R39). -/
def Mode.code : Mode → BitVec 2
  | .running => 0
  | .waitingForKey => 1
  | .halted => 2

/-- The 2-bit `fault_kind` output (R39). -/
def FaultKind.code : FaultKind → BitVec 2
  | .none => 0
  | .memoryFault => 1
  | .stackOverflow => 2
  | .stackUnderflow => 3

/-- `sound_on`: ST is not zero (60_exceptions.md rule R235). -/
def State.soundOn (s : State) : Bool := s.st != 0

/-- `obs_mem_data`: mem[obs_addr] (20_memory.md rule R69). -/
def State.obsMemData (s : State) (obsAddr : Addr) : Byte := s.mem.read obsAddr.toNat

/-- `fb_pixel`: fb[fb_row][fb_col] (R247). -/
def State.fbPixel (s : State) (row : BitVec 5) (col : BitVec 6) : Bool := s.fb.pixel row.toNat col.toNat

/-- `obs_sp`: SP in 5 bits (R241). -/
def State.obsSp (s : State) : BitVec 5 := BitVec.ofNat 5 s.sp.val

/-- `obs_keys`: bit k is key k (R241, 10_state.md rule R37). -/
def State.obsKeys (s : State) : BitVec 16 :=
  BitVec.ofNat 16 ((List.range 16).foldl (fun n k => n + if s.keyDown (BitVec.ofNat 4 k) then 2 ^ k else 0) 0)

end Sys2Proof.Machine
end

