-- ==== Sys2Proof/Safety.lean ====
section
/-! DEFINITION. The terms claims are stated in: the invariant of a well-formed state, what a state leaves unchanged from
another (frames), and what the spec lets each instruction write. -/

namespace Sys2Proof.Machine

/-- The invariant: memory in canonical form (no address outside 0..0xFFF, R38); the fault kind None exactly when the mode
is not Halted (R35); I below MEM_SIZE (R28); PC at most 0x10FE (R26); every call-stack entry at most 0x1000 (R26). SP is
0..16 by its type (R29). -/
abbrev State.Inv (s : State) : Prop :=
  s.mem.wf = true ∧
  (s.fault.kind = FaultKind.none ↔ s.mode ≠ Mode.halted) ∧
  s.i.toNat < Config.memSize ∧
  s.pc.toNat ≤ 0x10FE ∧
  ∀ j : Fin 16, (s.stack[j]).toNat ≤ 0x1000

/-- A piece of state, as frames name it (the general registers apart). -/
inductive Item where
  | i
  | pc
  | sp
  | stack
  | dt
  | st
  | mem
  | fb
  | keys
  | mode
  | waitreg
  | fault
  | diag
  | inputs
  | rand
  | draws
  deriving DecidableEq, Repr

/-- `t` agrees with `s` on every piece of state but the general registers `regs` holds of and the items `changed`
lists: every other register, every byte of memory, every pixel, every key and every other field. -/
structure SameBut (regs : Nibble → Bool) (changed : List Item) (s t : State) : Prop where
  v : ∀ r, regs r = false → t.readV r = s.readV r
  i : Item.i ∉ changed → t.i = s.i
  pc : Item.pc ∉ changed → t.pc = s.pc
  sp : Item.sp ∉ changed → t.sp = s.sp
  stack : Item.stack ∉ changed → t.stack = s.stack
  dt : Item.dt ∉ changed → t.dt = s.dt
  st : Item.st ∉ changed → t.st = s.st
  mem : Item.mem ∉ changed → ∀ a, t.mem.read a = s.mem.read a
  fb : Item.fb ∉ changed → ∀ r c, t.fb.pixel r c = s.fb.pixel r c
  keys : Item.keys ∉ changed → ∀ k, t.keyDown k = s.keyDown k
  mode : Item.mode ∉ changed → t.mode = s.mode
  waitreg : Item.waitreg ∉ changed → t.waitreg = s.waitreg
  fault : Item.fault ∉ changed → t.fault = s.fault
  diag : Item.diag ∉ changed → t.diag = s.diag
  inputs : Item.inputs ∉ changed → t.inputs = s.inputs
  rand : Item.rand ∉ changed → t.rand = s.rand
  draws : Item.draws ∉ changed → t.draws = s.draws

/-- No general register. -/
def noReg : Nibble → Bool := fun _ => false

/-- The one general register V[x]. -/
def onlyReg (x : Nibble) : Nibble → Bool := fun r => r == x

/-- V[x] and the flag register VF. -/
def regAndFlag (x : Nibble) : Nibble → Bool := fun r => r == x || r == Config.flagReg

/-- The registers V[0]..V[x]. -/
def regsUpTo (x : Nibble) : Nibble → Bool := fun r => decide (r.toNat ≤ x.toNat)

/-- The general registers an instruction may write (10_state.md rules R22 and R23). -/
def instrWritesV : Instr → Nibble → Bool
  | .ldByte x _ | .addByte x _ | .ldReg x _ | .orReg x _ | .andReg x _ | .xorReg x _ | .rnd x _ | .ldVxDT x => onlyReg x
  | .addReg x _ | .sub x _ | .subn x _ | .shr x _ | .shl x _ => regAndFlag x
  | .drw _ _ _ => onlyReg Config.flagReg
  | .loadRegs x => regsUpTo x
  | .cls _ | .ret _ | .jp _ | .call _ | .seByte _ _ | .sneByte _ _ | .seReg _ _ _ | .sneReg _ _ _ | .ldI _
  | .jpV0 _ | .skp _ | .sknp _ | .ldVxK _ | .ldDTVx _ | .ldSTVx _ | .addI _ | .ldF _ | .ldB _ | .storeRegs _ => noReg

/-- The other pieces of state an instruction that completes may write, PC apart (rules R27, R29, R31, R32, R34, R36,
R52). -/
def instrWrites : Instr → List Item
  | .cls _ => [.fb]
  | .drw _ _ _ => [.fb]
  | .ret _ => [.sp]
  | .call _ => [.sp, .stack]
  | .ldI _ | .addI _ | .ldF _ => [.i]
  | .ldB _ | .storeRegs _ => [.mem]
  | .ldVxK _ => [.mode, .waitreg]
  | .ldDTVx _ => [.dt]
  | .ldSTVx _ => [.st]
  | .rnd _ _ => [.draws]
  | .jp _ | .seByte _ _ | .sneByte _ _ | .seReg _ _ _ | .ldByte _ _ | .addByte _ _ | .ldReg _ _ | .orReg _ _
  | .andReg _ _ | .xorReg _ _ | .addReg _ _ | .sub _ _ | .shr _ _ | .subn _ _ | .shl _ _ | .sneReg _ _ _
  | .jpV0 _ | .skp _ | .sknp _ | .ldVxDT _ | .loadRegs _ => []

/-- How many bytes an instruction stores, from the effective address I (20_memory.md rule R52). -/
def instrStoredBytes : Instr → Nat
  | .ldB _ => 3
  | .storeRegs x => x.toNat + 1
  | .cls _ | .ret _ | .jp _ | .call _ | .seByte _ _ | .sneByte _ _ | .seReg _ _ _ | .ldByte _ _ | .addByte _ _
  | .ldReg _ _ | .orReg _ _ | .andReg _ _ | .xorReg _ _ | .addReg _ _ | .sub _ _ | .shr _ _ | .subn _ _
  | .shl _ _ | .sneReg _ _ _ | .ldI _ | .jpV0 _ | .rnd _ _ | .drw _ _ _ | .skp _ | .sknp _ | .ldVxDT _
  | .ldVxK _ | .ldDTVx _ | .ldSTVx _ | .addI _ | .ldF _ | .loadRegs _ => 0

/-- The bit a sprite has at pixel (r, c) of the grid: bit 7 - (c - x0) of the row byte at I + (r - y0), where the start
(x0, y0) is V[x] mod 64, V[y] mod 32 (40_display.md rules R102 to R104). -/
def State.spriteBit (s : State) (x y n : Nibble) (r c : Nat) : Bool :=
  let x0 := (s.readV x).toNat % 64
  let y0 := (s.readV y).toNat % 32
  decide (y0 ≤ r ∧ r < y0 + n.toNat ∧ x0 ≤ c ∧ c < x0 + 8) &&
    (s.mem.read (s.i.toNat + (r - y0))).getLsbD (7 - (c - x0))

/-- A run is safe for `k` steps when it reaches a state after them that is not Halted. -/
def SafeRun : Nat → State → Prop
  | 0, s => s.mode ≠ Mode.halted
  | k + 1, s => s.mode ≠ Mode.halted ∧ ∃ t, step s = .next t ∧ SafeRun k t

end Sys2Proof.Machine
end

