-- ==== Sys2Proof/Certificates/Slice0/Obligations.lean ====
section
/-! DEFINITION. The statements for the provers. A statement's docstring names the rules of spec/ it formalises. Where a
rule or a clause of it carries the spec's own mark [decision: D<n>] or [derived], the docstring says so, and
OBLIGATIONS.json gives the statement the basis 'derived'. -/

open Sys2Proof Sys2Proof.Machine

/-! ## Display family -/

/-- R100, `CLS`: class 0x0 with n = 0x0 and w[11:4] ignored; every pixel is 0 after it, VF and all else are unchanged, PC
ends at ipc + 2. -/
def Obligations.ClsClearsEveryPixel : Prop :=
  ∀ (u : Byte) (s : State),
    decode (0x0#4 ++ u ++ 0x0#4) = .instr (.cls u) ∧
    ∃ t, exec (.cls u) s = .next t ∧
      (∀ r c, r < 32 → c < 64 → t.fb.pixel r c = false) ∧
      t.pc = s.pc + 2 ∧ SameBut noReg [.pc, .fb] s t

/-- 40_display.md R102 to R105 (the spec's decisions D4, D9, D13; bit 7 leftmost is its general knowledge G7): when every
row is in memory, each bit of the sprite inside the grid inverts its pixel and no other pixel changes; VF is 1 when a bit
met an on pixel and 0 otherwise; the coordinates are the registers' old values. -/
def Obligations.DrawXorsSpriteAndDetectsCollision : Prop :=
  ∀ (x y n : Nibble) (s : State), n = 0 ∨ s.i.toNat + n.toNat ≤ 4096 →
    ∃ t, exec (.drw x y n) s = .next t ∧
      (∀ r c, r < 32 → c < 64 → t.fb.pixel r c = (s.fb.pixel r c ^^ s.spriteBit x y n r c)) ∧
      ((∃ r c, r < 32 ∧ c < 64 ∧ s.spriteBit x y n r c = true ∧ s.fb.pixel r c = true) → t.readV 0xF#4 = 1) ∧
      (¬ (∃ r c, r < 32 ∧ c < 64 ∧ s.spriteBit x y n r c = true ∧ s.fb.pixel r c = true) → t.readV 0xF#4 = 0) ∧
      t.pc = s.pc + 2 ∧ SameBut (onlyReg 0xF#4) [.pc, .fb] s t

/-- 40_display.md R102 to R106 and 95_test_vectors.md S3: drawing a sprite twice at the same place gives the first
framebuffer back. The second draw reports a collision exactly when one of its visible bits met a pixel that was off before
the first: this clause, for any first screen, is log entry 16's inference from the XOR of R104 and the flag of R105, not a
sentence of R106 or S3, which it agrees with where the framebuffer was clear. -/
def Obligations.DrawTwiceRestoresScreen : Prop :=
  ∀ (x y n : Nibble) (s : State), x ≠ 0xF#4 → y ≠ 0xF#4 → n = 0 ∨ s.i.toNat + n.toNat ≤ 4096 →
    ∃ t u, exec (.drw x y n) s = .next t ∧ exec (.drw x y n) t = .next u ∧
      (∀ r c, r < 32 → c < 64 → u.fb.pixel r c = s.fb.pixel r c) ∧
      (u.readV 0xF#4 = 1 ↔ ∃ r c, r < 32 ∧ c < 64 ∧ s.spriteBit x y n r c = true ∧ s.fb.pixel r c = false)

/-! ## Control-flow family -/

/-- 41_flow.md R121, `RET`: class 0x0 with n = 0xE and w[11:4] ignored; with SP not 0 it takes PC from the entry below SP,
which keeps its value, at most 0x1000 in a well-formed state; with SP = 0 it raises StackUnderflow. That the Halted state
then differs in nothing but the mode and the fault record is 60_exceptions.md R224 (the spec's decision D8; log entry 9). -/
def Obligations.RetPopsOrUnderflows : Prop :=
  ∀ (u : Byte) (s : State),
    decode (0x0#4 ++ u ++ 0xE#4) = .instr (.ret u) ∧
    (s.sp.val ≠ 0 →
      ∃ t, exec (.ret u) s = .next t ∧ s.stack[s.sp.val - 1]? = some t.pc ∧ t.sp.val + 1 = s.sp.val ∧
        (s.Inv → t.pc.toNat ≤ 0x1000) ∧ SameBut noReg [.pc, .sp] s t) ∧
    (s.sp.val = 0 →
      ∃ t, exec (.ret u) s = .next t ∧ t.mode = .halted ∧ t.fault.kind = .stackUnderflow ∧
        SameBut noReg [.mode, .fault] s t)

/-- 41_flow.md R122, `JP addr`: PC is the address; no exception at this step; the next fetch faults only for nnn = 0xFFF.
The rule's loop clause is the next statement. -/
def Obligations.JpSetsProgramCounter : Prop :=
  ∀ (nnn : Addr) (s : State),
    decode (0x1#4 ++ nnn) = .instr (.jp nnn) ∧
    ∃ t, exec (.jp nnn) s = .next t ∧ t.pc.toNat = nnn.toNat ∧
      ((∃ a, t.fetch = .error a) ↔ nnn = 0xFFF#12) ∧ SameBut noReg [.pc] s t

/-- 41_flow.md R122, corner case: `JP` to its own address is a loop that never halts (no input pending, so that every later
edge is a Step: log entry 1). -/
def Obligations.JumpToSelfNeverHalts : Prop :=
  ∀ (k : Nat) (nnn : Addr) (s : State),
    s.mode = .running → s.inputs = [] → s.pc.toNat = nnn.toNat → s.fetch = .ok (encode (.jp nnn)) → SafeRun k s

/-- 41_flow.md R123, `CALL addr`: with SP below 16 the entry at SP is ipc + 2, SP is one more, PC is the address and the
other entries are unchanged; with SP = 16 it raises StackOverflow. That the Halted state then differs in nothing but the
mode and the fault record is 60_exceptions.md R224 (the spec's decision D8; log entry 9). A CALL to its own address fills an
empty stack in 16 steps and faults on the 17th, where no input is pending, so that every edge is a Step (the model's choice,
log entry 1). -/
def Obligations.CallPushesOrOverflows : Prop :=
  ∀ (nnn : Addr) (s : State),
    decode (0x2#4 ++ nnn) = .instr (.call nnn) ∧
    (s.sp.val < 16 →
      ∃ t, exec (.call nnn) s = .next t ∧ t.stack[s.sp.val]? = some (s.pc + 2) ∧
        (∀ j : Nat, j ≠ s.sp.val → t.stack[j]? = s.stack[j]?) ∧
        t.sp.val = s.sp.val + 1 ∧ t.pc.toNat = nnn.toNat ∧ SameBut noReg [.pc, .sp, .stack] s t) ∧
    (s.sp.val = 16 →
      ∃ t, exec (.call nnn) s = .next t ∧ t.mode = .halted ∧ t.fault.kind = .stackOverflow ∧
        SameBut noReg [.mode, .fault] s t) ∧
    (s.mode = .running → s.inputs = [] → s.pc.toNat = nnn.toNat → s.fetch = .ok (encode (.call nnn)) → s.sp.val = 0 →
      ∃ t u : State, Sys2Proof.core.run 16 s = .next t ∧ t.mode = .running ∧ t.sp.val = 16 ∧ t.pc = s.pc ∧
        Sys2Proof.core.run 17 s = .next u ∧ u.mode = .halted ∧ u.fault.kind = .stackOverflow ∧ u.sp.val = 16)

/-- R132 (derived there): a CALL and a matching RET, whatever ran between them, as long as it left the stack as the CALL
left it: PC is the address after the CALL and SP is as before. -/
def Obligations.CallThenReturnRoundTrips : Prop :=
  ∀ (nnn : Addr) (u : Byte) (s : State), s.sp.val < 16 →
    ∃ t, exec (.call nnn) s = .next t ∧
      ∀ m : State, m.stack = t.stack → m.sp = t.sp →
        ∃ r, exec (.ret u) m = .next r ∧ r.pc = s.pc + 2 ∧ r.sp = s.sp

/-- 41_flow.md R128 (the spec's decisions D6 and D31): PC is the address plus V[0], not masked, so that a sum at or beyond
0xFFF faults at the next fetch. -/
def Obligations.JpV0AddsRegisterZero : Prop :=
  ∀ (nnn : Addr) (s : State),
    decode (0xB#4 ++ nnn) = .instr (.jpV0 nnn) ∧
    ∃ t, exec (.jpV0 nnn) s = .next t ∧ t.pc.toNat = nnn.toNat + (s.readV 0x0#4).toNat ∧
      ((∃ a, t.fetch = .error a) ↔ 4095 ≤ nnn.toNat + (s.readV 0x0#4).toNat) ∧ SameBut noReg [.pc] s t

/-- R124 and R125, `SE Vx, byte` and `SNE Vx, byte`: PC is ipc + 4 when the condition holds and ipc + 2 when not. -/
def Obligations.SkipsOnImmediate : Prop :=
  ∀ (x : Nibble) (nn : Byte) (s : State),
    decode (0x3#4 ++ x ++ nn) = .instr (.seByte x nn) ∧
    decode (0x4#4 ++ x ++ nn) = .instr (.sneByte x nn) ∧
    (∃ t, exec (.seByte x nn) s = .next t ∧
      t.pc = (if s.readV x = nn then s.pc + 4 else s.pc + 2) ∧ SameBut noReg [.pc] s t) ∧
    (∃ t, exec (.sneByte x nn) s = .next t ∧
      t.pc = (if s.readV x = nn then s.pc + 2 else s.pc + 4) ∧ SameBut noReg [.pc] s t)

/-- 41_flow.md R126 and R127 (the n field ignored is the spec's decision D24), `SE Vx, Vy` and `SNE Vx, Vy`. -/
def Obligations.SkipsOnRegisters : Prop :=
  ∀ (x y u : Nibble) (s : State),
    decode (0x5#4 ++ x ++ y ++ u) = .instr (.seReg x y u) ∧
    decode (0x9#4 ++ x ++ y ++ u) = .instr (.sneReg x y u) ∧
    (∃ t, exec (.seReg x y u) s = .next t ∧
      t.pc = (if s.readV x = s.readV y then s.pc + 4 else s.pc + 2) ∧ SameBut noReg [.pc] s t) ∧
    (∃ t, exec (.sneReg x y u) s = .next t ∧
      t.pc = (if s.readV x = s.readV y then s.pc + 2 else s.pc + 4) ∧ SameBut noReg [.pc] s t)

/-- 41_flow.md R129 and R130, `SKP Vx` and `SKNP Vx`: the key tested is the low nibble of V[x]. -/
def Obligations.SkipsOnKeys : Prop :=
  ∀ (x : Nibble) (s : State),
    decode (0xE#4 ++ x ++ 0x9E#8) = .instr (.skp x) ∧
    decode (0xE#4 ++ x ++ 0xA1#8) = .instr (.sknp x) ∧
    (∃ t, exec (.skp x) s = .next t ∧
      t.pc = (if s.keys[(s.readV x).toNat % 16]? = some true then s.pc + 4 else s.pc + 2) ∧ SameBut noReg [.pc] s t) ∧
    (∃ t, exec (.sknp x) s = .next t ∧
      t.pc = (if s.keys[(s.readV x).toNat % 16]? = some false then s.pc + 4 else s.pc + 2) ∧ SameBut noReg [.pc] s t)

/-! ## Register and arithmetic family -/

/-- R150, R151 and R152, `LD Vx, byte`, `ADD Vx, byte` (modulo 256, no flag) and `LD Vx, Vy`: only V[x] and PC change, so
VF changes only when x = 0xF. -/
def Obligations.LoadsAndImmediateAdd : Prop :=
  ∀ (x y : Nibble) (nn : Byte) (s : State),
    decode (0x6#4 ++ x ++ nn) = .instr (.ldByte x nn) ∧
    decode (0x7#4 ++ x ++ nn) = .instr (.addByte x nn) ∧
    decode (0x8#4 ++ x ++ y ++ 0x0#4) = .instr (.ldReg x y) ∧
    (∃ t, exec (.ldByte x nn) s = .next t ∧ t.readV x = nn ∧
      t.pc = s.pc + 2 ∧ SameBut (onlyReg x) [.pc] s t) ∧
    (∃ t, exec (.addByte x nn) s = .next t ∧ (t.readV x).toNat = ((s.readV x).toNat + nn.toNat) % 256 ∧
      t.pc = s.pc + 2 ∧ SameBut (onlyReg x) [.pc] s t) ∧
    (∃ t, exec (.ldReg x y) s = .next t ∧ t.readV x = s.readV y ∧
      t.pc = s.pc + 2 ∧ SameBut (onlyReg x) [.pc] s t)

/-- 42_alu.md R153, R154 and R155 (VF unchanged is the spec's decision D12): the bitwise operations, bit by bit; only V[x]
and PC change. -/
def Obligations.BitwiseOperationsLeaveFlag : Prop :=
  ∀ (x y : Nibble) (s : State),
    (∃ t, exec (.orReg x y) s = .next t ∧
      (∀ k, k < 8 → (t.readV x).getLsbD k = ((s.readV x).getLsbD k || (s.readV y).getLsbD k)) ∧
      t.pc = s.pc + 2 ∧ SameBut (onlyReg x) [.pc] s t) ∧
    (∃ t, exec (.andReg x y) s = .next t ∧
      (∀ k, k < 8 → (t.readV x).getLsbD k = ((s.readV x).getLsbD k && (s.readV y).getLsbD k)) ∧
      t.pc = s.pc + 2 ∧ SameBut (onlyReg x) [.pc] s t) ∧
    (∃ t, exec (.xorReg x y) s = .next t ∧
      (∀ k, k < 8 → (t.readV x).getLsbD k = ((s.readV x).getLsbD k ^^ (s.readV y).getLsbD k)) ∧
      t.pc = s.pc + 2 ∧ SameBut (onlyReg x) [.pc] s t)

/-- 42_alu.md R156 and R163 (VF written last is the spec's decision D9), `ADD Vx, Vy`: VF is the carry of the exact sum,
also when x = 0xF; otherwise V[x] is the sum modulo 256. -/
def Obligations.AddRegistersWritesCarryLast : Prop :=
  ∀ (x y : Nibble) (s : State),
    ∃ t, exec (.addReg x y) s = .next t ∧
      t.readV 0xF#4 = (if (s.readV x).toNat + (s.readV y).toNat > 255 then 1 else 0) ∧
      (x ≠ 0xF#4 → (t.readV x).toNat = ((s.readV x).toNat + (s.readV y).toNat) % 256) ∧
      t.pc = s.pc + 2 ∧ SameBut (regAndFlag x) [.pc] s t

/-- 42_alu.md R157, R159 and R163 (decision D9; which sub-code is which direction is the spec's general knowledge G8),
`SUB Vx, Vy` and `SUBN Vx, Vy`: VF is 1 when there is no borrow, written last. -/
def Obligations.SubtractsWriteNotBorrowLast : Prop :=
  ∀ (x y : Nibble) (s : State),
    (∃ t, exec (.sub x y) s = .next t ∧
      t.readV 0xF#4 = (if (s.readV y).toNat ≤ (s.readV x).toNat then 1 else 0) ∧
      (x ≠ 0xF#4 → (t.readV x).toNat = ((s.readV x).toNat + 256 - (s.readV y).toNat) % 256) ∧
      t.pc = s.pc + 2 ∧ SameBut (regAndFlag x) [.pc] s t) ∧
    (∃ t, exec (.subn x y) s = .next t ∧
      t.readV 0xF#4 = (if (s.readV x).toNat ≤ (s.readV y).toNat then 1 else 0) ∧
      (x ≠ 0xF#4 → (t.readV x).toNat = ((s.readV y).toNat + 256 - (s.readV x).toNat) % 256) ∧
      t.pc = s.pc + 2 ∧ SameBut (regAndFlag x) [.pc] s t)

/-- 42_alu.md R158, R160 and R163 (shifting V[x] in place is the spec's decision D10, VF written last D9), `SHR` and
`SHL`: by one place, VF is the bit shifted out. -/
def Obligations.ShiftsWriteBitShiftedOut : Prop :=
  ∀ (x u : Nibble) (s : State),
    (∃ t, exec (.shr x u) s = .next t ∧
      t.readV 0xF#4 = (if (s.readV x).toNat % 2 = 1 then 1 else 0) ∧
      (x ≠ 0xF#4 → (t.readV x).toNat = (s.readV x).toNat / 2) ∧
      t.pc = s.pc + 2 ∧ SameBut (regAndFlag x) [.pc] s t) ∧
    (∃ t, exec (.shl x u) s = .next t ∧
      t.readV 0xF#4 = (if 128 ≤ (s.readV x).toNat then 1 else 0) ∧
      (x ≠ 0xF#4 → (t.readV x).toNat = 2 * (s.readV x).toNat % 256) ∧
      t.pc = s.pc + 2 ∧ SameBut (regAndFlag x) [.pc] s t)

/-- 42_alu.md R161 (the random input is the spec's decision D14): V[x] is the random byte of the step AND nn, whatever
byte the host drives; where it drives none the byte is the model's free value (log entry 2), about which nothing is
assumed; every result is a submask of nn. -/
def Obligations.RandomByteIsMasked : Prop :=
  ∀ (x : Nibble) (nn : Byte) (s : State),
    ∃ t, exec (.rnd x nn) s = .next t ∧
      (∀ b, s.rand = .driven b → t.readV x = b &&& nn ∧ t.draws = s.draws) ∧
      (s.rand = .free → t.readV x = Config.freeRandByte s.draws &&& nn ∧ t.draws = s.draws + 1) ∧
      (∀ k, (t.readV x).getLsbD k = true → nn.getLsbD k = true) ∧
      t.pc = s.pc + 2 ∧ SameBut (onlyReg x) [.pc, .draws] s t

/-! ## Index register and memory family -/

/-- R180 and R181, `LD I, addr` and `ADD I, Vx` (modulo MEM_SIZE, VF not written). -/
def Obligations.SetAndAddIndex : Prop :=
  ∀ (nnn : Addr) (x : Nibble) (s : State),
    decode (0xA#4 ++ nnn) = .instr (.ldI nnn) ∧
    decode (0xF#4 ++ x ++ 0x1E#8) = .instr (.addI x) ∧
    (∃ t, exec (.ldI nnn) s = .next t ∧ t.i.toNat = nnn.toNat ∧ t.pc = s.pc + 2 ∧ SameBut noReg [.pc, .i] s t) ∧
    (∃ t, exec (.addI x) s = .next t ∧ t.i.toNat = (s.i.toNat + (s.readV x).toNat) % 4096 ∧
      t.pc = s.pc + 2 ∧ SameBut noReg [.pc, .i] s t)

/-- 43_index_memory.md R182 and R183 (the font's place, size and bytes are the spec's decision D5), `LD F, Vx`: I is 5
times the low nibble of V[x], and right after reset the five bytes there are the glyph of that digit: for digit 0,
F0 90 90 90 F0, and for digit F, F0 80 F0 80 80. -/
def Obligations.FontGlyphAddress : Prop :=
  ∀ (x : Nibble) (s : State),
    ∃ t, exec (.ldF x) s = .next t ∧ t.i.toNat = 5 * ((s.readV x).toNat % 16) ∧
      t.pc = s.pc + 2 ∧ SameBut noReg [.pc, .i] s t ∧
      (s.mem = State.reset.mem → (s.readV x).toNat % 16 = 0 →
        (List.range 5).map (fun k => t.mem.read (t.i.toNat + k)) = [0xF0, 0x90, 0x90, 0x90, 0xF0]) ∧
      (s.mem = State.reset.mem → (s.readV x).toNat % 16 = 15 →
        (List.range 5).map (fun k => t.mem.read (t.i.toNat + k)) = [0xF0, 0x80, 0xF0, 0x80, 0x80])

/-- 43_index_memory.md R184 (checking all addresses first is the spec's decision D8, the digit order its general knowledge
G9), `LD B, Vx`: when I + 2 is in memory, the three decimal digits, hundreds first, and no other byte changes. -/
def Obligations.BcdStoreWritesThreeDigits : Prop :=
  ∀ (x : Nibble) (s : State), s.mem.wf = true → s.i.toNat + 3 ≤ 4096 →
    ∃ t, exec (.ldB x) s = .next t ∧
      (t.mem.read (s.ea 0)).toNat = (s.readV x).toNat / 100 ∧
      (t.mem.read (s.ea 1)).toNat = (s.readV x).toNat / 10 % 10 ∧
      (t.mem.read (s.ea 2)).toNat = (s.readV x).toNat % 10 ∧
      (∀ a, a < s.ea 0 ∨ s.ea 0 + 3 ≤ a → t.mem.read a = s.mem.read a) ∧
      t.pc = s.pc + 2 ∧ SameBut noReg [.pc, .mem] s t

/-- 43_index_memory.md R185 (decisions D8 and D11), `LD [I], Vx`: when I + x is in memory, the byte at I + k is V[k] for
every k up to x, no other byte changes, and I is unchanged. -/
def Obligations.BlockStoreWritesRegisters : Prop :=
  ∀ (x : Nibble) (s : State), s.mem.wf = true → s.i.toNat + x.toNat < 4096 →
    ∃ t, exec (.storeRegs x) s = .next t ∧
      (∀ r : Nibble, r.toNat ≤ x.toNat → t.mem.read (s.ea r.toNat) = s.readV r) ∧
      (∀ a, a < s.ea 0 ∨ s.ea 0 + (x.toNat + 1) ≤ a → t.mem.read a = s.mem.read a) ∧
      t.pc = s.pc + 2 ∧ SameBut noReg [.pc, .mem] s t

/-- 43_index_memory.md R186 (decisions D8 and D11), `LD Vx, [I]`: when I + x is in memory, V[k] is the byte at I + k for
every k up to x; registers above x, I and memory are unchanged. -/
def Obligations.BlockLoadReadsRegisters : Prop :=
  ∀ (x : Nibble) (s : State), s.i.toNat + x.toNat < 4096 →
    ∃ t, exec (.loadRegs x) s = .next t ∧
      (∀ r : Nibble, r.toNat ≤ x.toNat → t.readV r = s.mem.read (s.ea r.toNat)) ∧
      t.pc = s.pc + 2 ∧ SameBut (regsUpTo x) [.pc] s t

/-- 43_index_memory.md R184 to R187, 40_display.md R102, 60_exceptions.md R221 and R225 (the spec's decisions D8, D13 and
D26): an access run that leaves memory takes the MemoryFault, halts, writes nothing else, and records ipc, the word and the
lowest address out of range. -/
def Obligations.RunsOutOfMemoryFault : Prop :=
  ∀ (i : Instr) (len : Nat) (s : State),
    (∃ x y n : Nibble, i = .drw x y n ∧ len = n.toNat) ∨ (∃ x : Nibble, i = .ldB x ∧ len = 3) ∨
      (∃ x : Nibble, i = .storeRegs x ∧ len = x.toNat + 1) ∨ (∃ x : Nibble, i = .loadRegs x ∧ len = x.toNat + 1) →
    len ≠ 0 → 4096 < s.i.toNat + len →
    ∃ t, exec i s = .next t ∧ t.mode = .halted ∧
      t.fault.kind = .memoryFault ∧ t.fault.pc = s.pc ∧ t.fault.word = encode i ∧ t.fault.wordValid = true ∧
      t.fault.addr.toNat = max s.i.toNat 4096 ∧ t.fault.addrValid = true ∧
      SameBut noReg [.mode, .fault] s t

/-- 43_index_memory.md R185 and R186, 20_memory.md R62 (decisions D8, D11, D16): what `LD [I], Vx` stored, `LD Vx, [I]` at
the same I loads back, in any state that has that memory. -/
def Obligations.BlockLoadRestoresBlockStore : Prop :=
  ∀ (x : Nibble) (s : State), s.mem.wf = true → s.i.toNat + x.toNat < 4096 →
    ∃ t, exec (.storeRegs x) s = .next t ∧
      ∀ m : State, m.mem = t.mem → m.i = s.i →
        ∃ u, exec (.loadRegs x) m = .next u ∧ ∀ r : Nibble, r.toNat ≤ x.toNat → u.readV r = s.readV r

/-- 20_memory.md R56 and R65 (derived there): bytes a program stored with `LD [I], Vx` are what a later fetch from there
reads, big-endian. -/
def Obligations.StoredBytesAreFetched : Prop :=
  ∀ (x : Nibble) (s : State), s.mem.wf = true → s.i.toNat + x.toNat < 4096 → 1 ≤ x.toNat →
    ∃ t, exec (.storeRegs x) s = .next t ∧
      ∀ m : State, m.mem = t.mem → m.pc = s.i → m.fetch = .ok (s.readV 0x0#4 ++ s.readV 0x1#4)

/-! ## Timer and key-wait family -/

/-- 44_timer_input.md R200, R203 and R204, `LD Vx, DT`, `LD DT, Vx` and `LD ST, Vx`: `sound_on` after `LD ST, Vx` is V[x] not 0. -/
def Obligations.TimerTransfers : Prop :=
  ∀ (x : Nibble) (s : State),
    decode (0xF#4 ++ x ++ 0x07#8) = .instr (.ldVxDT x) ∧
    decode (0xF#4 ++ x ++ 0x15#8) = .instr (.ldDTVx x) ∧
    decode (0xF#4 ++ x ++ 0x18#8) = .instr (.ldSTVx x) ∧
    (∃ t, exec (.ldVxDT x) s = .next t ∧ t.readV x = s.dt ∧ t.pc = s.pc + 2 ∧ SameBut (onlyReg x) [.pc] s t) ∧
    (∃ t, exec (.ldDTVx x) s = .next t ∧ t.dt = s.readV x ∧ t.pc = s.pc + 2 ∧ SameBut noReg [.pc, .dt] s t) ∧
    (∃ t, exec (.ldSTVx x) s = .next t ∧ t.st = s.readV x ∧ (t.soundOn = true ↔ s.readV x ≠ 0) ∧
      t.pc = s.pc + 2 ∧ SameBut noReg [.pc, .st] s t)

/-- 44_timer_input.md R201 (the spec's decision D15), `LD Vx, K`: the mode is WaitingForKey and waitreg is x, whatever the
keys are; PC is ipc + 2 and V[x] is unchanged; a Step event then does nothing. -/
def Obligations.KeyWaitSuspends : Prop :=
  ∀ (x : Nibble) (s : State),
    ∃ t, exec (.ldVxK x) s = .next t ∧ t.mode = .waitingForKey ∧ t.waitreg = x ∧
      t.pc = s.pc + 2 ∧ SameBut noReg [.pc, .mode, .waitreg] s t ∧
      ∀ rnd, stepEvent rnd t = .next t

/-! ## Events -/

/-- 44_timer_input.md R202 and 60_exceptions.md R244 (the spec's decision D15): a KeyDown event in WaitingForKey, also for
a key already down, sets the key, writes its index to V[waitreg] and resumes; in the other modes it only sets the key; a
KeyUp event only clears the key and ends no wait. -/
def Obligations.KeyEventsAndResume : Prop :=
  ∀ (k : Nibble) (s : State),
    (∃ t, applyEvent (.keyDown k) s = .next t ∧ t.keyDown k = true ∧ (∀ j, j ≠ k → t.keyDown j = s.keyDown j) ∧
      (s.mode = .waitingForKey → t.mode = .running ∧ (t.readV s.waitreg).toNat = k.toNat ∧
        SameBut (onlyReg s.waitreg) [.keys, .mode] s t) ∧
      (s.mode ≠ .waitingForKey → SameBut noReg [.keys] s t)) ∧
    (∃ t, applyEvent (.keyUp k) s = .next t ∧ t.keyDown k = false ∧ (∀ j, j ≠ k → t.keyDown j = s.keyDown j) ∧
      SameBut noReg [.keys] s t)

/-- 60_exceptions.md R245, 20_memory.md R60 and R68 (the spec's decision D19): a Load event writes its byte at every 12-bit
address, the font's included, in every mode, and changes nothing else. -/
def Obligations.LoadEventWritesOneByte : Prop :=
  ∀ (a : Addr) (b : Byte) (s : State), s.mem.wf = true →
    ∃ t, applyEvent (.load a b) s = .next t ∧ t.obsMemData a = b ∧
      (∀ c, c ≠ a → t.obsMemData c = s.obsMemData c) ∧ SameBut noReg [.mem] s t

/-- 60_exceptions.md R233, R234 and R235 (the spec's decisions D1, D17 and D23): a Tick event takes 1 from each timer that
is not 0, in every mode, and changes nothing else; `sound_on` follows ST. -/
def Obligations.TickCountsBothTimersDown : Prop :=
  ∀ s : State,
    ∃ t, applyEvent .tick s = .next t ∧ t.dt.toNat = s.dt.toNat - 1 ∧ t.st.toNat = s.st.toNat - 1 ∧
      (t.soundOn = true ↔ 1 < s.st.toNat) ∧ SameBut noReg [.dt, .st] s t

/-- 70_reset_and_hazards.md R260, R261 and R265, 10_state.md R41 (the spec's decisions D5 and D18): a Reset event in any
mode zeroes every register, the stack, the timers, the keys and the screen, sets PC to 0x200 and the mode to Running, and
leaves memory zero above the font. That the diagnostic outputs and the model's own fields keep their values is the model's
choice (log entries 1, 2 and 3). -/
def Obligations.ResetEventGivesResetState : Prop :=
  ∀ s : State,
    ∃ t, applyEvent .reset s = .next t ∧
      (∀ r, t.readV r = 0) ∧ t.i = 0 ∧ t.pc = 0x200#16 ∧ t.sp.val = 0 ∧ (∀ j : Fin 16, t.stack[j] = 0) ∧
      t.dt = 0 ∧ t.st = 0 ∧ (∀ k, t.keyDown k = false) ∧ (∀ r c, t.fb.pixel r c = false) ∧
      t.mode = .running ∧ t.waitreg = 0 ∧ t.fault = FaultRecord.clear ∧
      (∀ a, a < 80 → t.mem.read a = State.reset.mem.read a) ∧ (∀ a, 80 ≤ a → t.mem.read a = 0) ∧
      t.diag = s.diag ∧ t.inputs = s.inputs ∧ t.rand = s.rand ∧ t.draws = s.draws

/-- R243: a Step event runs one instruction cycle in Running, with its random input available, and does nothing in the
other modes (no fetch, no diagnostic, the random input ignored). -/
def Obligations.StepEventOnlyInRunning : Prop :=
  ∀ (rnd : RandInput) (s : State),
    (s.mode = .running → applyEvent (.step rnd) s = runCycle { s with rand := rnd }) ∧
    (s.mode ≠ .running → applyEvent (.step rnd) s = .next s)

/-- 60_exceptions.md R242 (the spec's decision D16): one clock edge with a pending input sample applies reset alone, or
load, key, tick and step in this order, each to the result of the one before. That the edge's inputs come from a queue in
the state is the model's choice (log entry 1). That `diag_unknown` is 0 again from the start of the edge is the model's
inference from R241 (log entry 3). -/
def Obligations.ClockEdgeAppliesEventsInOrder : Prop :=
  ∀ (s : State) (p : PortSample) (rest : List PortSample), s.inputs = p :: rest →
    (p.rst = true → step s = .next s.beginEdge.resetEvent) ∧
    (p.rst = false →
      ∃ s1 s2 s3 : State,
        s1 = (if p.loadWe then s.beginEdge.loadEvent p.loadAddr p.loadData else s.beginEdge) ∧
        s2 = (if p.keyEvt then (if p.keyDown then s1.keyDownEvent p.keyIdx else s1.keyUpEvent p.keyIdx) else s1) ∧
        s3 = (if p.tick then s2.tickEvent else s2) ∧
        step s = (if p.step then stepEvent (.driven p.randByte) s3 else .next s3)) ∧
    s.beginEdge.inputs = rest ∧ s.beginEdge.diag.pulse = false ∧ SameBut noReg [.inputs, .diag] s s.beginEdge

/-! ## The instruction cycle -/

/-- A step runs the decoded instruction (41_flow.md R120; decision D8): when the two bytes at PC decode to i, a Step event
in Running is exec of i with the event's random input in place, and a step with no input pending is exec of i with the
free random input and the diagnostic pulse ended. PC is still ipc there: each meaning makes the advance by 2 itself
(log entry 6). -/
def Obligations.StepRunsDecodedInstruction : Prop :=
  ∀ (s : State) (i : Instr), s.mode = .running → s.pc.toNat + 2 ≤ 4096 →
    decode (s.mem.read s.pc.toNat ++ s.mem.read (s.pc.toNat + 1)) = .instr i →
    (∀ rnd, stepEvent rnd s = exec i { s with rand := rnd }) ∧
    (s.inputs = [] → step s = exec i { s with rand := .free, diag := { s.diag with pulse := false } })

/-- R55: the fetch reads the bytes at ipc and ipc + 1 big-endian, and raises MemoryFault on ipc, or on ipc + 1, when that
is the first address out of range. -/
def Obligations.FetchIsBigEndianAndChecked : Prop :=
  ∀ s : State,
    (4096 ≤ s.pc.toNat → s.fetch = .error s.pc.toNat) ∧
    (s.pc.toNat = 4095 → s.fetch = .error (s.pc.toNat + 1)) ∧
    (s.pc.toNat + 1 < 4096 →
      ∃ w, s.fetch = .ok w ∧ w.toNat = (s.mem.read s.pc.toNat).toNat * 256 + (s.mem.read (s.pc.toNat + 1)).toNat)

/-- 60_exceptions.md R221, R224 and R225 (the spec's decisions D8 and D26): a fetch out of range halts with a MemoryFault,
no word valid, the lowest address out of range recorded, PC kept and nothing else changed. -/
def Obligations.FetchOutOfRangeHalts : Prop :=
  ∀ (rnd : RandInput) (s : State), s.mode = .running → 4095 ≤ s.pc.toNat →
    ∃ t, stepEvent rnd s = .next t ∧ t.mode = .halted ∧ t.fault.kind = .memoryFault ∧ t.fault.pc = s.pc ∧
      t.fault.word = 0 ∧ t.fault.wordValid = false ∧ t.fault.addr.toNat = max s.pc.toNat 4096 ∧
      t.fault.addrValid = true ∧ SameBut noReg [.mode, .fault, .rand] s t

/-- 30_encoding.md R81 and 60_exceptions.md R227 (derived there, and the spec's decision D21): an unknown opcode is a
no-op: PC is ipc + 2, the mode stays, and the diagnostic outputs pulse with ipc and the word. -/
def Obligations.UnknownOpcodeIsNoOp : Prop :=
  ∀ (rnd : RandInput) (s : State) (w : Word), s.mode = .running → s.fetch = .ok w → decode w = .unknown w →
    ∃ t, stepEvent rnd s = .next t ∧ t.pc = s.pc + 2 ∧
      t.diag.pulse = true ∧ t.diag.pc = s.pc ∧ t.diag.word = w ∧ SameBut noReg [.pc, .diag, .rand] s t

/-- 60_exceptions.md R220, R224, R225 and R229 (the spec's decisions D8, D26 and D27): an instruction that halts the
machine changes only the mode and the fault record; the record has ipc, the word and one kind of the closed taxonomy, and
each kind has only its own raisers. -/
def Obligations.FaultsArePreciseAndClosed : Prop :=
  ∀ (i : Instr) (s t : State), s.mode = .running → exec i s = .next t → t.mode = .halted →
    SameBut noReg [.mode, .fault] s t ∧
    t.fault.pc = s.pc ∧ t.fault.word = encode i ∧ t.fault.wordValid = true ∧
    ((t.fault.kind = .stackOverflow ∧ (∃ nnn, i = .call nnn) ∧ s.sp.val = 16 ∧
        t.fault.addr = 0 ∧ t.fault.addrValid = false) ∨
     (t.fault.kind = .stackUnderflow ∧ (∃ u, i = .ret u) ∧ s.sp.val = 0 ∧
        t.fault.addr = 0 ∧ t.fault.addrValid = false) ∨
     (t.fault.kind = .memoryFault ∧ t.fault.addrValid = true ∧ t.fault.addr.toNat = max s.i.toNat 4096 ∧
        ((∃ x y n, i = .drw x y n) ∨ (∃ x, i = .ldB x) ∨ (∃ x, i = .storeRegs x) ∨ (∃ x, i = .loadRegs x))))

/-- 10_state.md R22, R23, R27, R29, R31, R32, R34, R36, R37 and 20_memory.md R52 (derived and decided there): what each of
the 34 instructions may write. An instruction that completes leaves every register, flag, timer, pixel, key, stack entry
and byte alone but those its rule names; PC may change. -/
def Obligations.InstructionsWriteOnlyTheirState : Prop :=
  ∀ (i : Instr) (s t : State), exec i s = .next t → t.mode ≠ .halted →
    SameBut (instrWritesV i) (Item.pc :: instrWrites i) s t ∧
    ∀ a, a < s.ea 0 ∨ s.ea 0 + instrStoredBytes i ≤ a → t.mem.read a = s.mem.read a

/-- 10_state.md R32 to R35 and R40, 60_exceptions.md R227 (derived and decided there): no instruction reads ST, waitreg,
the fault record or the diagnostic outputs: two states that differ only in them go to states that differ only in them. -/
def Obligations.HiddenStateIsNeverRead : Prop :=
  ∀ (i : Instr) (s : State) (st : Byte) (waitreg : Nibble) (fault : FaultRecord) (diag : DiagPort),
    ∃ t t', exec i s = .next t ∧
      exec i { s with st := st, waitreg := waitreg, fault := fault, diag := diag } = .next t' ∧
      SameBut noReg [.st, .waitreg, .fault, .diag] t t'

/-- 42_alu.md R161 and 60_exceptions.md R241 (decisions D1 and D14): the random input reaches no instruction but RND. The
model's counter of free draws (log entry 2) reaches none either. -/
def Obligations.RandomInputReachesOnlyRnd : Prop :=
  ∀ (i : Instr) (s : State) (rand : RandInput) (draws : Nat), (∀ x nn, i ≠ .rnd x nn) →
    ∃ t t', exec i s = .next t ∧ exec i { s with rand := rand, draws := draws } = .next t' ∧
      SameBut noReg [.rand, .draws] t t'

/-! ## Encoding -/

/-- 30_encoding.md R71 and R75 to R80 (opcode values: the spec's general knowledge G1): decoding an instruction's word
gives the instruction back, with every operand and every ignored bit at every value. -/
def Obligations.DecodeInvertsEncode : Prop :=
  ∀ i : Instr, decode (encode i) = .instr i

/-- 30_encoding.md R74 and R83 (opcode values: G1): where a word decodes to an instruction, encoding it gives the word
back, so no bit of a word is dropped and no two words are one instruction. -/
def Obligations.EncodeInvertsDecode : Prop :=
  ∀ (w : Word) (i : Instr), decode w = .instr i → encode i = w

/-- 30_encoding.md R81 (derived there) and R87: a word is unknown exactly when it lies in the rule's four groups, and the
decoder then names the word; every other word is an instruction. The reading of class 0x0 is the spec's decision D20, that
of the classes 0x5 and 0x9 its decision D24, the opcode values its general knowledge G1. -/
def Obligations.UnknownSpaceIsExactlyR81 : Prop :=
  ∀ w : Word,
    ((w.toNat / 4096 = 0x0 ∧ w.toNat % 16 ≠ 0x0 ∧ w.toNat % 16 ≠ 0xE) ∨
      (w.toNat / 4096 = 0x8 ∧ w.toNat % 16 ∈ [0x8, 0x9, 0xA, 0xB, 0xC, 0xD, 0xF]) ∨
      (w.toNat / 4096 = 0xE ∧ w.toNat % 256 ∉ [0x9E, 0xA1]) ∨
      (w.toNat / 4096 = 0xF ∧ w.toNat % 256 ∉ [0x07, 0x0A, 0x15, 0x18, 0x1E, 0x29, 0x33, 0x55, 0x65]) ↔
        decode w = .unknown w) ∧
    (wordWellFormed w = true ↔ ∃ i, decode w = .instr i)

/-- 30_encoding.md R76, R80 and R82, 42_alu.md R158 and R160 (the spec's decisions D10, D20 and D24): the ignored bits
change nothing an instruction does. For RET on an empty stack the fault record holds the word as fetched (60_exceptions.md
R225, decision D26; that the model's instruction keeps the ignored bits for it is log entry 5), and the two records agree in
every other field. -/
def Obligations.IgnoredBitsChangeNothing : Prop :=
  ∀ (x y u u' : Nibble) (b b' : Byte) (s : State),
    exec (.cls b) s = exec (.cls b') s ∧
    exec (.seReg x y u) s = exec (.seReg x y u') s ∧
    exec (.sneReg x y u) s = exec (.sneReg x y u') s ∧
    exec (.shr x u) s = exec (.shr x u') s ∧
    exec (.shl x u) s = exec (.shl x u') s ∧
    ∃ t t', exec (.ret b) s = .next t ∧ exec (.ret b') s = .next t' ∧ (s.sp.val ≠ 0 → t = t') ∧
      (s.sp.val = 0 → t.fault.word = 0x0#4 ++ b ++ 0xE#4 ∧ t'.fault.word = 0x0#4 ++ b' ++ 0xE#4) ∧
      t'.fault = { t.fault with word := t'.fault.word } ∧ SameBut noReg [.fault] t t'

/-- 95_test_vectors.md part 2.1 (words written out there from R75 to R80): a few words and what they decode to. -/
def Obligations.DecodesSpecWords : Prop :=
  decode 0x00E0#16 = .instr (.cls 0x0E#8) ∧ decode 0x0000#16 = .instr (.cls 0x00#8) ∧
  decode 0x00EE#16 = .instr (.ret 0x0E#8) ∧ decode 0x0FFE#16 = .instr (.ret 0xFF#8) ∧
  decode 0x0123#16 = .unknown 0x0123#16 ∧ decode 0x5121#16 = .instr (.seReg 1 2 1) ∧
  decode 0x9AB7#16 = .instr (.sneReg 0xA 0xB 7) ∧ decode 0x8008#16 = .unknown 0x8008#16 ∧
  decode 0x80FE#16 = .instr (.shl 0 0xF) ∧ decode 0xE19E#16 = .instr (.skp 1) ∧
  decode 0xE1A1#16 = .instr (.sknp 1) ∧ decode 0xF165#16 = .instr (.loadRegs 1) ∧
  decode 0xFFFF#16 = .unknown 0xFFFF#16

/-- Log entry 8 (the model's own): placing an instruction's word where the reset machine fetches, as the host's Load events
would, makes the very next step run that instruction; the bytes it lays out are those of 20_memory.md R55. -/
def Obligations.PlacedWordRunsAfterReset : Prop :=
  ∀ i : Instr,
    step (State.reset.withFetchWord 16 (encode i).toNat) = exec i (State.reset.withFetchWord 16 (encode i).toNat) ∧
    (State.reset.withFetchWord 16 (encode i).toNat).fetch = .ok (encode i) ∧
    SameBut noReg [.mem] State.reset (State.reset.withFetchWord 16 (encode i).toNat)

/-! ## The whole machine -/

/-- 10_state.md R41 and 43_index_memory.md R183 (the spec's decisions D5 and D18): the state right after reset, with the
whole font. The last two clauses, the diagnostic outputs at 0 and no input pending, are the model's choice (log entries 3
and 1). -/
def Obligations.ResetStateValues : Prop :=
  (∀ r, State.reset.readV r = 0) ∧ State.reset.i = 0 ∧ State.reset.pc = 0x200#16 ∧ State.reset.sp.val = 0 ∧
  (∀ j : Fin 16, State.reset.stack[j] = 0) ∧ State.reset.dt = 0 ∧ State.reset.st = 0 ∧
  (∀ k, State.reset.keyDown k = false) ∧ (∀ r c, State.reset.fb.pixel r c = false) ∧
  State.reset.mode = .running ∧ State.reset.waitreg = 0 ∧ State.reset.fault = ⟨.none, 0, 0, false, 0, false⟩ ∧
  (List.range 40).map State.reset.mem.read =
    [0xF0, 0x90, 0x90, 0x90, 0xF0, 0x20, 0x60, 0x20, 0x20, 0x70, 0xF0, 0x10, 0xF0, 0x80, 0xF0, 0xF0, 0x10, 0xF0, 0x10, 0xF0,
     0x90, 0x90, 0xF0, 0x10, 0x10, 0xF0, 0x80, 0xF0, 0x10, 0xF0, 0xF0, 0x80, 0xF0, 0x90, 0xF0, 0xF0, 0x10, 0x20, 0x40, 0x40] ∧
  (List.range 40).map (fun k => State.reset.mem.read (40 + k)) =
    [0xF0, 0x90, 0xF0, 0x90, 0xF0, 0xF0, 0x90, 0xF0, 0x10, 0xF0, 0xF0, 0x90, 0xF0, 0x90, 0x90, 0xE0, 0x90, 0xE0, 0x90, 0xE0,
     0xF0, 0x80, 0x80, 0x80, 0xF0, 0xE0, 0x90, 0x90, 0x90, 0xE0, 0xF0, 0x80, 0xF0, 0x80, 0xF0, 0xF0, 0x80, 0xF0, 0x80, 0x80] ∧
  (∀ a, 80 ≤ a → State.reset.mem.read a = 0) ∧
  State.reset.diag = ⟨false, 0, 0⟩ ∧ State.reset.inputs = []

/-- 60_exceptions.md R248 ("The block's rules still give a defined result for every sequence of events"; decision D19) and
R229: from every state, whatever the host delivers, the step answers a next state: no fault or refusal of the model ends a
run. -/
def Obligations.EveryStepAnswersNext : Prop :=
  ∀ s : State, ∃ t, step s = .next t

/-- 10_state.md R26, R28, R29, R35 and R38 (derived and decided there): every step, whatever the host delivers, keeps the
invariant: memory in canonical form inside 0..0xFFF, fault kind None exactly when not Halted, I below MEM_SIZE, PC at most
0x10FE, stack entries at most 0x1000. -/
def Obligations.StepKeepsInvariant : Prop :=
  ∀ s t : State, s.Inv → step s = .next t → t.Inv

/-- 10_state.md R41 (decisions D5 and D18): the reset state has the invariant. -/
def Obligations.ResetHasInvariant : Prop :=
  State.reset.Inv

/-- 70_reset_and_hazards.md R265, said of clock edges whose inputs stand in the model's queue (log entry 1): a reset is the
only way out of Halted, and besides a KeyDown the only way out of WaitingForKey; a reset during a key wait discards waitreg
and gives no register a key, whatever else the sample drives, since the edge then ignores its other inputs (60_exceptions.md
R242, the spec's decision D16; log entry 10). -/
def Obligations.OnlyResetLeavesHalted : Prop :=
  ∀ s t : State, step s = .next t →
    (s.mode = .halted → t.mode ≠ .halted → ∃ p rest, s.inputs = p :: rest ∧ p.rst = true) ∧
    (s.mode = .waitingForKey → t.mode ≠ .waitingForKey →
      ∃ p rest, s.inputs = p :: rest ∧ (p.rst = true ∨ (p.keyEvt = true ∧ p.keyDown = true))) ∧
    (∀ p rest, s.inputs = p :: rest → p.rst = true →
      t.mode = .running ∧ t.waitreg = 0 ∧ ∀ r, t.readV r = 0)

/-- 60_exceptions.md R226 (the spec's decision D17): in Halted every edge without a reset leaves the engine's state as it
is, the fault record, PC, registers, stack and screen included; only timers, keys and memory follow the host. The input
queue moving on and the diagnostic pulse ending are the model's (log entries 1 and 3). -/
def Obligations.HaltedEngineIsFrozen : Prop :=
  ∀ s : State, s.mode = .halted → (∀ p rest, s.inputs = p :: rest → p.rst = false) →
    ∃ t, step s = .next t ∧ SameBut noReg [.dt, .st, .keys, .mem, .diag, .inputs] s t ∧
      t.diag.pc = s.diag.pc ∧ t.diag.word = s.diag.word

/-- 20_memory.md R53 and R60, 60_exceptions.md R248 (decisions D8 and D19): no byte outside the address space is ever held:
after every step from a well-formed state, an address from 0x1000 up reads as it does right after reset. -/
def Obligations.NothingIsStoredOutsideMemory : Prop :=
  ∀ (s t : State) (a : Nat), s.Inv → step s = .next t → 4096 ≤ a → t.mem.read a = 0
end

