-- ==== Sys2Proof/Laws/Decode.lean ====
section
/-! SUPPORT. The fields of a word that is put together from its fields (30_encoding.md rule R71), in each of the shapes
`encode` uses, and the bytes of a word (20_memory.md rule R55). -/

namespace Sys2Proof

/-- Concatenation as arithmetic. -/
theorem toNat_cat {a b : Nat} (x : BitVec a) (y : BitVec b) : (x ++ y).toNat = x.toNat * 2 ^ b + y.toNat := by
  rw [BitVec.toNat_append, ← Nat.shiftLeft_add_eq_or_of_lt y.isLt, Nat.shiftLeft_eq]

theorem toNat_word_xyn (c x y n : Nibble) :
    BitVec.toNat (w := 16) (c ++ x ++ y ++ n) = ((c.toNat * 16 + x.toNat) * 16 + y.toNat) * 16 + n.toNat := by
  have h := toNat_cat (c ++ x ++ y) n
  rw [toNat_cat (c ++ x) y, toNat_cat c x] at h
  exact h

theorem toNat_word_xnn (c x : Nibble) (nn : Byte) :
    BitVec.toNat (w := 16) (c ++ x ++ nn) = (c.toNat * 16 + x.toNat) * 256 + nn.toNat := by
  have h := toNat_cat (c ++ x) nn
  rw [toNat_cat c x] at h
  exact h

theorem toNat_word_un (c : Nibble) (u : Byte) (n : Nibble) :
    BitVec.toNat (w := 16) (c ++ u ++ n) = (c.toNat * 256 + u.toNat) * 16 + n.toNat := by
  have h := toNat_cat (c ++ u) n
  rw [toNat_cat c u] at h
  exact h

theorem toNat_word_nnn (c : Nibble) (nnn : Addr) :
    BitVec.toNat (w := 16) (c ++ nnn) = c.toNat * 4096 + nnn.toNat := toNat_cat c nnn

@[simp] theorem fieldCls_xyn (c x y n : Nibble) : fieldCls (c ++ x ++ y ++ n) = c := by
  apply BitVec.eq_of_toNat_eq
  rw [fieldCls, BitVec.extractLsb'_toNat, toNat_word_xyn, Nat.shiftRight_eq_div_pow]
  have := c.isLt; have := x.isLt; have := y.isLt; have := n.isLt
  omega

@[simp] theorem fieldX_xyn (c x y n : Nibble) : fieldX (c ++ x ++ y ++ n) = x := by
  apply BitVec.eq_of_toNat_eq
  rw [fieldX, BitVec.extractLsb'_toNat, toNat_word_xyn, Nat.shiftRight_eq_div_pow]
  have := c.isLt; have := x.isLt; have := y.isLt; have := n.isLt
  omega

@[simp] theorem fieldY_xyn (c x y n : Nibble) : fieldY (c ++ x ++ y ++ n) = y := by
  apply BitVec.eq_of_toNat_eq
  rw [fieldY, BitVec.extractLsb'_toNat, toNat_word_xyn, Nat.shiftRight_eq_div_pow]
  have := c.isLt; have := x.isLt; have := y.isLt; have := n.isLt
  omega

@[simp] theorem fieldN_xyn (c x y n : Nibble) : fieldN (c ++ x ++ y ++ n) = n := by
  apply BitVec.eq_of_toNat_eq
  rw [fieldN, BitVec.extractLsb'_toNat, toNat_word_xyn, Nat.shiftRight_eq_div_pow]
  have := c.isLt; have := x.isLt; have := y.isLt; have := n.isLt
  omega

@[simp] theorem fieldCls_xnn (c x : Nibble) (nn : Byte) : fieldCls (c ++ x ++ nn) = c := by
  apply BitVec.eq_of_toNat_eq
  rw [fieldCls, BitVec.extractLsb'_toNat, toNat_word_xnn, Nat.shiftRight_eq_div_pow]
  have := c.isLt; have := x.isLt; have := nn.isLt
  omega

@[simp] theorem fieldX_xnn (c x : Nibble) (nn : Byte) : fieldX (c ++ x ++ nn) = x := by
  apply BitVec.eq_of_toNat_eq
  rw [fieldX, BitVec.extractLsb'_toNat, toNat_word_xnn, Nat.shiftRight_eq_div_pow]
  have := c.isLt; have := x.isLt; have := nn.isLt
  omega

@[simp] theorem fieldNN_xnn (c x : Nibble) (nn : Byte) : fieldNN (c ++ x ++ nn) = nn := by
  apply BitVec.eq_of_toNat_eq
  rw [fieldNN, BitVec.extractLsb'_toNat, toNat_word_xnn, Nat.shiftRight_eq_div_pow]
  have := c.isLt; have := x.isLt; have := nn.isLt
  omega

@[simp] theorem fieldCls_un (c : Nibble) (u : Byte) (n : Nibble) : fieldCls (c ++ u ++ n) = c := by
  apply BitVec.eq_of_toNat_eq
  rw [fieldCls, BitVec.extractLsb'_toNat, toNat_word_un, Nat.shiftRight_eq_div_pow]
  have := c.isLt; have := u.isLt; have := n.isLt
  omega

@[simp] theorem fieldU_un (c : Nibble) (u : Byte) (n : Nibble) : fieldU (c ++ u ++ n) = u := by
  apply BitVec.eq_of_toNat_eq
  rw [fieldU, BitVec.extractLsb'_toNat, toNat_word_un, Nat.shiftRight_eq_div_pow]
  have := c.isLt; have := u.isLt; have := n.isLt
  omega

@[simp] theorem fieldN_un (c : Nibble) (u : Byte) (n : Nibble) : fieldN (c ++ u ++ n) = n := by
  apply BitVec.eq_of_toNat_eq
  rw [fieldN, BitVec.extractLsb'_toNat, toNat_word_un, Nat.shiftRight_eq_div_pow]
  have := c.isLt; have := u.isLt; have := n.isLt
  omega

@[simp] theorem fieldCls_nnn (c : Nibble) (nnn : Addr) : fieldCls (c ++ nnn) = c := by
  apply BitVec.eq_of_toNat_eq
  rw [fieldCls, BitVec.extractLsb'_toNat, toNat_word_nnn, Nat.shiftRight_eq_div_pow]
  have := c.isLt; have := nnn.isLt
  omega

@[simp] theorem fieldNNN_nnn (c : Nibble) (nnn : Addr) : fieldNNN (c ++ nnn) = nnn := by
  apply BitVec.eq_of_toNat_eq
  rw [fieldNNN, BitVec.extractLsb'_toNat, toNat_word_nnn, Nat.shiftRight_eq_div_pow]
  have := c.isLt; have := nnn.isLt
  omega

/-- Field `cls` of a word, as arithmetic (R71). -/
theorem toNat_fieldCls (w : Word) : (fieldCls w).toNat = w.toNat / 4096 := by
  have := w.isLt
  rw [fieldCls, BitVec.extractLsb'_toNat, Nat.shiftRight_eq_div_pow]
  omega

/-- Field `x` of a word, as arithmetic (R71). -/
theorem toNat_fieldX (w : Word) : (fieldX w).toNat = w.toNat / 256 % 16 := by
  rw [fieldX, BitVec.extractLsb'_toNat, Nat.shiftRight_eq_div_pow]

/-- Field `y` of a word, as arithmetic (R71). -/
theorem toNat_fieldY (w : Word) : (fieldY w).toNat = w.toNat / 16 % 16 := by
  rw [fieldY, BitVec.extractLsb'_toNat, Nat.shiftRight_eq_div_pow]

/-- Field `n` of a word, as arithmetic (R71). -/
theorem toNat_fieldN (w : Word) : (fieldN w).toNat = w.toNat % 16 := by
  have := w.isLt
  rw [fieldN, BitVec.extractLsb'_toNat, Nat.shiftRight_eq_div_pow]
  omega

/-- Field `nn` of a word, as arithmetic (R71). -/
theorem toNat_fieldNN (w : Word) : (fieldNN w).toNat = w.toNat % 256 := by
  have := w.isLt
  rw [fieldNN, BitVec.extractLsb'_toNat, Nat.shiftRight_eq_div_pow]
  omega

/-- Field `nnn` of a word, as arithmetic (R71). -/
theorem toNat_fieldNNN (w : Word) : (fieldNNN w).toNat = w.toNat % 4096 := by
  have := w.isLt
  rw [fieldNNN, BitVec.extractLsb'_toNat, Nat.shiftRight_eq_div_pow]
  omega

/-- Field `u` of a word, as arithmetic (R71). -/
theorem toNat_fieldU (w : Word) : (fieldU w).toNat = w.toNat / 16 % 256 := by
  rw [fieldU, BitVec.extractLsb'_toNat, Nat.shiftRight_eq_div_pow]

/-- The bytes of a word make the word again. -/
@[simp] theorem wordOfBytes_bytes (w : Word) : wordOfBytes (hiByte w) (loByte w) = w := by
  apply BitVec.eq_of_toNat_eq
  have h := toNat_cat (hiByte w) (loByte w)
  have := w.isLt
  have h1 : (hiByte w).toNat = w.toNat / 256 := by
    rw [hiByte, BitVec.extractLsb'_toNat, Nat.shiftRight_eq_div_pow]; omega
  have h2 : (loByte w).toNat = w.toNat % 256 := by
    rw [loByte, BitVec.extractLsb'_toNat, Nat.shiftRight_eq_div_pow]; omega
  refine Eq.trans h ?_
  omega

/-- Decoding the two bytes of a word is decoding the word. -/
theorem decodeBytes_wordBytes (w : Word) (rest : List Byte) :
    decodeBytes (wordBytes w ++ rest) =
      match decode w with
      | .instr i => .instr i rest
      | .unknown w => .unknown w rest := by
  cases h : decode w <;>
    simp only [wordBytes, List.cons_append, List.nil_append, decodeBytes, wordOfBytes_bytes, h]

/-- The table's numbering of a 16-bit word is the word's own. -/
theorem decodeTableWord_eq (w : Word) :
    decodeTableWord 16 w.toNat =
      match decode w with
      | .instr i => some i
      | .unknown _ => none := by
  have h : tableWord 16 w.toNat = w := by
    apply BitVec.eq_of_toNat_eq
    have := w.isLt
    rw [tableWord, BitVec.toNat_ofNat]
    omega
  rw [decodeTableWord, h, ← List.append_nil (wordBytes w), decodeBytes_wordBytes]
  cases decode w <;> rfl

end Sys2Proof
end

