-- ==== Sys2Proof/Laws/Memory.lean ====
section
/-! SUPPORT. Memory: a read after a write, the canonical form is kept by every operation, and equal reads of canonical
memories mean equal memories. -/

namespace Sys2Proof.Machine

theorem Memory.wfFrom_cons {lo k : Nat} {b : Byte} {rest : Memory} :
    Memory.wfFrom lo ((k, b) :: rest) = true ↔
      lo ≤ k ∧ k < 4096 ∧ b ≠ resetByte k ∧ Memory.wfFrom (k + 1) rest = true := by
  simp only [Memory.wfFrom, Bool.and_eq_true, decide_eq_true_eq, and_assoc]

@[simp] theorem Memory.read_nil (a : Nat) : Memory.read [] a = resetByte a := rfl

@[simp] theorem Memory.read_cons (k : Nat) (b : Byte) (rest : Memory) (a : Nat) :
    Memory.read ((k, b) :: rest) a = if k = a then b else Memory.read rest a := rfl

/-- An address below every listed one reads as at reset. -/
theorem Memory.read_below {m : Memory} {lo a : Nat} (h : Memory.wfFrom lo m = true) (ha : a < lo) :
    m.read a = resetByte a := by
  induction m generalizing lo with
  | nil => rfl
  | cons e rest ih =>
    obtain ⟨k, b⟩ := e
    obtain ⟨h1, -, -, h4⟩ := Memory.wfFrom_cons.mp h
    rw [Memory.read, if_neg (by omega), ih h4 (by omega)]

theorem Memory.wfFrom_mono {m : Memory} {lo lo' : Nat} (h : Memory.wfFrom lo m = true) (hl : lo' ≤ lo) :
    Memory.wfFrom lo' m = true := by
  cases m with
  | nil => rfl
  | cons e rest =>
    obtain ⟨k, b⟩ := e
    obtain ⟨h1, h2, h3, h4⟩ := Memory.wfFrom_cons.mp h
    exact Memory.wfFrom_cons.mpr ⟨by omega, h2, h3, h4⟩

theorem Memory.read_insert {m : Memory} {lo : Nat} (h : Memory.wfFrom lo m = true) (a : Nat) (b : Byte) (c : Nat) :
    (Memory.insert m a b).read c = if c = a then b else m.read c := by
  induction m generalizing lo with
  | nil =>
    by_cases hb : b = resetByte a <;> by_cases hc : c = a
    · rw [Memory.insert, if_pos hb, if_pos hc, hc, hb, Memory.read]
    · rw [Memory.insert, if_pos hb, if_neg hc]
    · rw [Memory.insert, if_neg hb, if_pos hc, Memory.read, if_pos hc.symm]
    · rw [Memory.insert, if_neg hb, if_neg hc, Memory.read_cons, if_neg (Ne.symm hc)]
  | cons e rest ih =>
    obtain ⟨k, d⟩ := e
    obtain ⟨-, -, -, h4⟩ := Memory.wfFrom_cons.mp h
    rw [Memory.insert]
    by_cases h1 : a < k
    · rw [if_pos h1]
      by_cases hb : b = resetByte a <;> by_cases hc : c = a
      · rw [if_pos hb, if_pos hc, hc, hb, Memory.read, if_neg (by omega), Memory.read_below h4 (by omega)]
      · rw [if_pos hb, if_neg hc]
      · rw [if_neg hb, if_pos hc, Memory.read, if_pos hc.symm]
      · rw [if_neg hb, if_neg hc, Memory.read, if_neg (Ne.symm hc)]
    · rw [if_neg h1]
      by_cases h2 : a = k
      · rw [if_pos h2]
        by_cases hb : b = resetByte a <;> by_cases hc : c = a
        · rw [if_pos hb, if_pos hc, hc, hb, Memory.read_below h4 (by omega)]
        · rw [if_pos hb, if_neg hc, Memory.read, if_neg (by omega)]
        · rw [if_neg hb, if_pos hc, Memory.read, if_pos hc.symm]
        · rw [if_neg hb, if_neg hc, Memory.read, if_neg (Ne.symm hc), Memory.read, if_neg (by omega)]
      · rw [if_neg h2, Memory.read, Memory.read, ih h4]
        by_cases hk : k = c
        · rw [if_pos hk, if_neg (by omega), if_pos hk]
        · rw [if_neg hk, if_neg hk]

theorem Memory.wfFrom_insert {m : Memory} {lo a : Nat} (h : Memory.wfFrom lo m = true) (hl : lo ≤ a) (ha : a < 4096)
    (b : Byte) : Memory.wfFrom lo (Memory.insert m a b) = true := by
  induction m generalizing lo with
  | nil =>
    rw [Memory.insert]
    split
    · rfl
    · next hb => exact Memory.wfFrom_cons.mpr ⟨hl, ha, hb, rfl⟩
  | cons e rest ih =>
    obtain ⟨k, d⟩ := e
    obtain ⟨h1, h2, h3, h4⟩ := Memory.wfFrom_cons.mp h
    rw [Memory.insert]
    by_cases hk : a < k
    · rw [if_pos hk]
      split
      · exact h
      · next hb => exact Memory.wfFrom_cons.mpr ⟨hl, ha, hb, Memory.wfFrom_cons.mpr ⟨hk, h2, h3, h4⟩⟩
    · rw [if_neg hk]
      by_cases he : a = k
      · subst he
        rw [if_pos rfl]
        split
        · exact Memory.wfFrom_mono h4 (by omega)
        · next hb => exact Memory.wfFrom_cons.mpr ⟨hl, ha, hb, h4⟩
      · rw [if_neg he]
        exact Memory.wfFrom_cons.mpr ⟨h1, h2, h3, ih h4 (by omega)⟩

/-- A read after a write (memory in canonical form): the byte written at the address written, the old byte elsewhere. -/
theorem Memory.read_write {m : Memory} (h : m.wf = true) {a : Nat} (ha : a < 4096) (b : Byte) (c : Nat) :
    (m.write a b).read c = if c = a then b else m.read c := by
  rw [Memory.write, if_pos ha, Memory.read_insert h]

/-- A read elsewhere than at the address written is unchanged, in every memory. -/
theorem Memory.read_insert_ne (m : Memory) {a c : Nat} (hc : c ≠ a) (b : Byte) :
    (Memory.insert m a b).read c = m.read c := by
  induction m with
  | nil =>
    rw [Memory.insert]
    split
    · rfl
    · rw [Memory.read_cons, if_neg (Ne.symm hc)]
  | cons e rest ih =>
    obtain ⟨k, d⟩ := e
    rw [Memory.insert]
    by_cases h1 : a < k
    · rw [if_pos h1]
      split
      · rfl
      · rw [Memory.read, if_neg (Ne.symm hc)]
    · rw [if_neg h1]
      by_cases h2 : a = k
      · rw [if_pos h2]
        split
        · rw [Memory.read, if_neg (by omega)]
        · rw [Memory.read, if_neg (Ne.symm hc), Memory.read, if_neg (by omega)]
      · rw [if_neg h2, Memory.read, Memory.read, ih]

theorem Memory.read_write_ne (m : Memory) {a c : Nat} (hc : c ≠ a) (b : Byte) :
    (m.write a b).read c = m.read c := by
  unfold Memory.write
  split
  · exact Memory.read_insert_ne m hc b
  · rfl

/-- Every store keeps the canonical form. -/
theorem Memory.write_wf {m : Memory} (h : m.wf = true) (a : Nat) (b : Byte) : (m.write a b).wf = true := by
  unfold Memory.write
  split
  · next ha => exact Memory.wfFrom_insert h (Nat.zero_le _) ha b
  · exact h

/-- Every run of stores keeps the canonical form. -/
theorem Memory.writeRun_wf (bs : List Byte) {m : Memory} (h : m.wf = true) (a : Nat) : (m.writeRun a bs).wf = true := by
  induction bs generalizing m a with
  | nil => exact h
  | cons b bs ih => exact ih (Memory.write_wf h a b) (a + 1)

/-- A run of stores leaves every byte outside it as it was. -/
theorem Memory.read_writeRun_outside (bs : List Byte) (m : Memory) {a c : Nat} (hc : c < a ∨ a + bs.length ≤ c) :
    (m.writeRun a bs).read c = m.read c := by
  induction bs generalizing m a with
  | nil => rfl
  | cons b bs ih =>
    rw [List.length_cons] at hc
    rw [Memory.writeRun, ih _ (by omega), Memory.read_write_ne _ (by omega)]

/-- A run of stores inside memory puts each of its bytes at its place. -/
theorem Memory.read_writeRun_inside (bs : List Byte) {m : Memory} (h : m.wf = true) {a k : Nat}
    (hr : a + bs.length ≤ 4096) (hk : k < bs.length) : (m.writeRun a bs).read (a + k) = bs[k] := by
  induction bs generalizing m a k with
  | nil => exact absurd hk (Nat.not_lt_zero _)
  | cons b bs ih =>
    rw [List.length_cons] at hr hk
    rw [Memory.writeRun]
    cases k with
    | zero =>
      rw [Memory.read_writeRun_outside _ _ (by omega), Memory.read_write h (by omega), if_pos (by omega)]
      rfl
    | succ k =>
      have := ih (Memory.write_wf h a b) (a := a + 1) (k := k) (by omega) (by omega)
      rw [show a + (k + 1) = a + 1 + k by omega, this]
      rfl

/-- Two memories in canonical form that read alike everywhere are the same list. -/
theorem Memory.wfFrom_ext {m m' : Memory} {lo : Nat} (h : Memory.wfFrom lo m = true) (h' : Memory.wfFrom lo m' = true)
    (he : ∀ a, m.read a = m'.read a) : m = m' := by
  induction m generalizing m' lo with
  | nil =>
    cases m' with
    | nil => rfl
    | cons e' r' =>
      obtain ⟨k', b'⟩ := e'
      have := he k'
      rw [Memory.read, Memory.read, if_pos rfl] at this
      exact absurd this.symm (Memory.wfFrom_cons.mp h').2.2.1
  | cons e r ih =>
    obtain ⟨k, b⟩ := e
    obtain ⟨-, -, h3, h4⟩ := Memory.wfFrom_cons.mp h
    cases m' with
    | nil =>
      have := he k
      rw [Memory.read_cons, if_pos rfl] at this
      exact absurd this h3
    | cons e' r' =>
      obtain ⟨k', b'⟩ := e'
      obtain ⟨-, -, h3', h4'⟩ := Memory.wfFrom_cons.mp h'
      have hk := he k
      have hk' := he k'
      simp only [Memory.read, ↓reduceIte] at hk hk'
      rcases Nat.lt_trichotomy k k' with hlt | heq | hgt
      · rw [if_neg (by omega), Memory.read_below h4' (by omega)] at hk
        exact absurd hk h3
      · subst heq
        simp only [↓reduceIte] at hk
        subst hk
        have : r = r' := by
          refine ih h4 h4' (fun a => ?_)
          by_cases ha : a < k + 1
          · rw [Memory.read_below h4 ha, Memory.read_below h4' ha]
          · have := he a
            rwa [Memory.read, Memory.read, if_neg (by omega), if_neg (by omega)] at this
        rw [this]
      · rw [if_neg (by omega), Memory.read_below h4 (by omega)] at hk'
        exact absurd hk'.symm h3'

theorem Memory.wf_ext {m m' : Memory} (h : m.wf = true) (h' : m'.wf = true) (he : ∀ a, m.read a = m'.read a) : m = m' :=
  Memory.wfFrom_ext h h' he

/-- Reset memory is in canonical form. -/
theorem Memory.reset_wf : State.reset.mem.wf = true := rfl

/-- An address outside memory always reads as zero, so nothing outside the address space can be observed. -/
theorem Memory.read_outside {m : Memory} {lo a : Nat} (h : Memory.wfFrom lo m = true) (ha : 4096 ≤ a) :
    m.read a = resetByte a := by
  induction m generalizing lo with
  | nil => rfl
  | cons e rest ih =>
    obtain ⟨k, b⟩ := e
    obtain ⟨-, h2, -, h4⟩ := Memory.wfFrom_cons.mp h
    rw [Memory.read, if_neg (by omega), ih h4]

end Sys2Proof.Machine
end

