-- ==== Sys2Proof/Laws/State.lean ====
section
/-! SUPPORT. One lemma per field per update of State: what an update leaves alone, and what it writes. -/

namespace Sys2Proof.Machine

@[simp] theorem State.writeV_v (s : State) (x : Nibble) (b : Byte) : (s.writeV x b).v = s.v.set x.toNat b x.isLt := rfl
@[simp] theorem State.writeV_i (s : State) (x : Nibble) (b : Byte) : (s.writeV x b).i = s.i := rfl
@[simp] theorem State.writeV_pc (s : State) (x : Nibble) (b : Byte) : (s.writeV x b).pc = s.pc := rfl
@[simp] theorem State.writeV_sp (s : State) (x : Nibble) (b : Byte) : (s.writeV x b).sp = s.sp := rfl
@[simp] theorem State.writeV_stack (s : State) (x : Nibble) (b : Byte) : (s.writeV x b).stack = s.stack := rfl
@[simp] theorem State.writeV_dt (s : State) (x : Nibble) (b : Byte) : (s.writeV x b).dt = s.dt := rfl
@[simp] theorem State.writeV_st (s : State) (x : Nibble) (b : Byte) : (s.writeV x b).st = s.st := rfl
@[simp] theorem State.writeV_mem (s : State) (x : Nibble) (b : Byte) : (s.writeV x b).mem = s.mem := rfl
@[simp] theorem State.writeV_fb (s : State) (x : Nibble) (b : Byte) : (s.writeV x b).fb = s.fb := rfl
@[simp] theorem State.writeV_keys (s : State) (x : Nibble) (b : Byte) : (s.writeV x b).keys = s.keys := rfl
@[simp] theorem State.writeV_mode (s : State) (x : Nibble) (b : Byte) : (s.writeV x b).mode = s.mode := rfl
@[simp] theorem State.writeV_waitreg (s : State) (x : Nibble) (b : Byte) : (s.writeV x b).waitreg = s.waitreg := rfl
@[simp] theorem State.writeV_fault (s : State) (x : Nibble) (b : Byte) : (s.writeV x b).fault = s.fault := rfl
@[simp] theorem State.writeV_diag (s : State) (x : Nibble) (b : Byte) : (s.writeV x b).diag = s.diag := rfl
@[simp] theorem State.writeV_inputs (s : State) (x : Nibble) (b : Byte) : (s.writeV x b).inputs = s.inputs := rfl
@[simp] theorem State.writeV_rand (s : State) (x : Nibble) (b : Byte) : (s.writeV x b).rand = s.rand := rfl
@[simp] theorem State.writeV_draws (s : State) (x : Nibble) (b : Byte) : (s.writeV x b).draws = s.draws := rfl

@[simp] theorem State.writeWithFlag_i (s : State) (x : Nibble) (b : Byte) (f : Bool) : (s.writeWithFlag x b f).i = s.i := rfl
@[simp] theorem State.writeWithFlag_pc (s : State) (x : Nibble) (b : Byte) (f : Bool) : (s.writeWithFlag x b f).pc = s.pc := rfl
@[simp] theorem State.writeWithFlag_sp (s : State) (x : Nibble) (b : Byte) (f : Bool) : (s.writeWithFlag x b f).sp = s.sp := rfl
@[simp] theorem State.writeWithFlag_stack (s : State) (x : Nibble) (b : Byte) (f : Bool) : (s.writeWithFlag x b f).stack = s.stack := rfl
@[simp] theorem State.writeWithFlag_dt (s : State) (x : Nibble) (b : Byte) (f : Bool) : (s.writeWithFlag x b f).dt = s.dt := rfl
@[simp] theorem State.writeWithFlag_st (s : State) (x : Nibble) (b : Byte) (f : Bool) : (s.writeWithFlag x b f).st = s.st := rfl
@[simp] theorem State.writeWithFlag_mem (s : State) (x : Nibble) (b : Byte) (f : Bool) : (s.writeWithFlag x b f).mem = s.mem := rfl
@[simp] theorem State.writeWithFlag_fb (s : State) (x : Nibble) (b : Byte) (f : Bool) : (s.writeWithFlag x b f).fb = s.fb := rfl
@[simp] theorem State.writeWithFlag_keys (s : State) (x : Nibble) (b : Byte) (f : Bool) : (s.writeWithFlag x b f).keys = s.keys := rfl
@[simp] theorem State.writeWithFlag_mode (s : State) (x : Nibble) (b : Byte) (f : Bool) : (s.writeWithFlag x b f).mode = s.mode := rfl
@[simp] theorem State.writeWithFlag_waitreg (s : State) (x : Nibble) (b : Byte) (f : Bool) : (s.writeWithFlag x b f).waitreg = s.waitreg := rfl
@[simp] theorem State.writeWithFlag_fault (s : State) (x : Nibble) (b : Byte) (f : Bool) : (s.writeWithFlag x b f).fault = s.fault := rfl
@[simp] theorem State.writeWithFlag_diag (s : State) (x : Nibble) (b : Byte) (f : Bool) : (s.writeWithFlag x b f).diag = s.diag := rfl
@[simp] theorem State.writeWithFlag_inputs (s : State) (x : Nibble) (b : Byte) (f : Bool) : (s.writeWithFlag x b f).inputs = s.inputs := rfl
@[simp] theorem State.writeWithFlag_rand (s : State) (x : Nibble) (b : Byte) (f : Bool) : (s.writeWithFlag x b f).rand = s.rand := rfl
@[simp] theorem State.writeWithFlag_draws (s : State) (x : Nibble) (b : Byte) (f : Bool) : (s.writeWithFlag x b f).draws = s.draws := rfl

@[simp] theorem State.setKey_v (s : State) (k : Nibble) (d : Bool) : (s.setKey k d).v = s.v := rfl
@[simp] theorem State.setKey_i (s : State) (k : Nibble) (d : Bool) : (s.setKey k d).i = s.i := rfl
@[simp] theorem State.setKey_pc (s : State) (k : Nibble) (d : Bool) : (s.setKey k d).pc = s.pc := rfl
@[simp] theorem State.setKey_sp (s : State) (k : Nibble) (d : Bool) : (s.setKey k d).sp = s.sp := rfl
@[simp] theorem State.setKey_stack (s : State) (k : Nibble) (d : Bool) : (s.setKey k d).stack = s.stack := rfl
@[simp] theorem State.setKey_dt (s : State) (k : Nibble) (d : Bool) : (s.setKey k d).dt = s.dt := rfl
@[simp] theorem State.setKey_st (s : State) (k : Nibble) (d : Bool) : (s.setKey k d).st = s.st := rfl
@[simp] theorem State.setKey_mem (s : State) (k : Nibble) (d : Bool) : (s.setKey k d).mem = s.mem := rfl
@[simp] theorem State.setKey_fb (s : State) (k : Nibble) (d : Bool) : (s.setKey k d).fb = s.fb := rfl
@[simp] theorem State.setKey_keys (s : State) (k : Nibble) (d : Bool) : (s.setKey k d).keys = s.keys.set k.toNat d k.isLt := rfl
@[simp] theorem State.setKey_mode (s : State) (k : Nibble) (d : Bool) : (s.setKey k d).mode = s.mode := rfl
@[simp] theorem State.setKey_waitreg (s : State) (k : Nibble) (d : Bool) : (s.setKey k d).waitreg = s.waitreg := rfl
@[simp] theorem State.setKey_fault (s : State) (k : Nibble) (d : Bool) : (s.setKey k d).fault = s.fault := rfl
@[simp] theorem State.setKey_diag (s : State) (k : Nibble) (d : Bool) : (s.setKey k d).diag = s.diag := rfl
@[simp] theorem State.setKey_inputs (s : State) (k : Nibble) (d : Bool) : (s.setKey k d).inputs = s.inputs := rfl
@[simp] theorem State.setKey_rand (s : State) (k : Nibble) (d : Bool) : (s.setKey k d).rand = s.rand := rfl
@[simp] theorem State.setKey_draws (s : State) (k : Nibble) (d : Bool) : (s.setKey k d).draws = s.draws := rfl

@[simp] theorem State.advance_v (s : State) : (s.advance).v = s.v := rfl
@[simp] theorem State.advance_i (s : State) : (s.advance).i = s.i := rfl
@[simp] theorem State.advance_pc (s : State) : (s.advance).pc = s.pc + 2 := rfl
@[simp] theorem State.advance_sp (s : State) : (s.advance).sp = s.sp := rfl
@[simp] theorem State.advance_stack (s : State) : (s.advance).stack = s.stack := rfl
@[simp] theorem State.advance_dt (s : State) : (s.advance).dt = s.dt := rfl
@[simp] theorem State.advance_st (s : State) : (s.advance).st = s.st := rfl
@[simp] theorem State.advance_mem (s : State) : (s.advance).mem = s.mem := rfl
@[simp] theorem State.advance_fb (s : State) : (s.advance).fb = s.fb := rfl
@[simp] theorem State.advance_keys (s : State) : (s.advance).keys = s.keys := rfl
@[simp] theorem State.advance_mode (s : State) : (s.advance).mode = s.mode := rfl
@[simp] theorem State.advance_waitreg (s : State) : (s.advance).waitreg = s.waitreg := rfl
@[simp] theorem State.advance_fault (s : State) : (s.advance).fault = s.fault := rfl
@[simp] theorem State.advance_diag (s : State) : (s.advance).diag = s.diag := rfl
@[simp] theorem State.advance_inputs (s : State) : (s.advance).inputs = s.inputs := rfl
@[simp] theorem State.advance_rand (s : State) : (s.advance).rand = s.rand := rfl
@[simp] theorem State.advance_draws (s : State) : (s.advance).draws = s.draws := rfl

@[simp] theorem State.raise_v (s : State) (k : FaultKind) (w : Option Word) (a : Option Nat) : (s.raise k w a).v = s.v := rfl
@[simp] theorem State.raise_i (s : State) (k : FaultKind) (w : Option Word) (a : Option Nat) : (s.raise k w a).i = s.i := rfl
@[simp] theorem State.raise_pc (s : State) (k : FaultKind) (w : Option Word) (a : Option Nat) : (s.raise k w a).pc = s.pc := rfl
@[simp] theorem State.raise_sp (s : State) (k : FaultKind) (w : Option Word) (a : Option Nat) : (s.raise k w a).sp = s.sp := rfl
@[simp] theorem State.raise_stack (s : State) (k : FaultKind) (w : Option Word) (a : Option Nat) : (s.raise k w a).stack = s.stack := rfl
@[simp] theorem State.raise_dt (s : State) (k : FaultKind) (w : Option Word) (a : Option Nat) : (s.raise k w a).dt = s.dt := rfl
@[simp] theorem State.raise_st (s : State) (k : FaultKind) (w : Option Word) (a : Option Nat) : (s.raise k w a).st = s.st := rfl
@[simp] theorem State.raise_mem (s : State) (k : FaultKind) (w : Option Word) (a : Option Nat) : (s.raise k w a).mem = s.mem := rfl
@[simp] theorem State.raise_fb (s : State) (k : FaultKind) (w : Option Word) (a : Option Nat) : (s.raise k w a).fb = s.fb := rfl
@[simp] theorem State.raise_keys (s : State) (k : FaultKind) (w : Option Word) (a : Option Nat) : (s.raise k w a).keys = s.keys := rfl
@[simp] theorem State.raise_mode (s : State) (k : FaultKind) (w : Option Word) (a : Option Nat) : (s.raise k w a).mode = .halted := rfl
@[simp] theorem State.raise_waitreg (s : State) (k : FaultKind) (w : Option Word) (a : Option Nat) : (s.raise k w a).waitreg = s.waitreg := rfl
@[simp] theorem State.raise_diag (s : State) (k : FaultKind) (w : Option Word) (a : Option Nat) : (s.raise k w a).diag = s.diag := rfl
@[simp] theorem State.raise_inputs (s : State) (k : FaultKind) (w : Option Word) (a : Option Nat) : (s.raise k w a).inputs = s.inputs := rfl
@[simp] theorem State.raise_rand (s : State) (k : FaultKind) (w : Option Word) (a : Option Nat) : (s.raise k w a).rand = s.rand := rfl
@[simp] theorem State.raise_draws (s : State) (k : FaultKind) (w : Option Word) (a : Option Nat) : (s.raise k w a).draws = s.draws := rfl

@[simp] theorem State.loadEvent_v (s : State) (a : Addr) (b : Byte) : (s.loadEvent a b).v = s.v := rfl
@[simp] theorem State.loadEvent_i (s : State) (a : Addr) (b : Byte) : (s.loadEvent a b).i = s.i := rfl
@[simp] theorem State.loadEvent_pc (s : State) (a : Addr) (b : Byte) : (s.loadEvent a b).pc = s.pc := rfl
@[simp] theorem State.loadEvent_sp (s : State) (a : Addr) (b : Byte) : (s.loadEvent a b).sp = s.sp := rfl
@[simp] theorem State.loadEvent_stack (s : State) (a : Addr) (b : Byte) : (s.loadEvent a b).stack = s.stack := rfl
@[simp] theorem State.loadEvent_dt (s : State) (a : Addr) (b : Byte) : (s.loadEvent a b).dt = s.dt := rfl
@[simp] theorem State.loadEvent_st (s : State) (a : Addr) (b : Byte) : (s.loadEvent a b).st = s.st := rfl
@[simp] theorem State.loadEvent_mem (s : State) (a : Addr) (b : Byte) : (s.loadEvent a b).mem = s.mem.write a.toNat b := rfl
@[simp] theorem State.loadEvent_fb (s : State) (a : Addr) (b : Byte) : (s.loadEvent a b).fb = s.fb := rfl
@[simp] theorem State.loadEvent_keys (s : State) (a : Addr) (b : Byte) : (s.loadEvent a b).keys = s.keys := rfl
@[simp] theorem State.loadEvent_mode (s : State) (a : Addr) (b : Byte) : (s.loadEvent a b).mode = s.mode := rfl
@[simp] theorem State.loadEvent_waitreg (s : State) (a : Addr) (b : Byte) : (s.loadEvent a b).waitreg = s.waitreg := rfl
@[simp] theorem State.loadEvent_fault (s : State) (a : Addr) (b : Byte) : (s.loadEvent a b).fault = s.fault := rfl
@[simp] theorem State.loadEvent_diag (s : State) (a : Addr) (b : Byte) : (s.loadEvent a b).diag = s.diag := rfl
@[simp] theorem State.loadEvent_inputs (s : State) (a : Addr) (b : Byte) : (s.loadEvent a b).inputs = s.inputs := rfl
@[simp] theorem State.loadEvent_rand (s : State) (a : Addr) (b : Byte) : (s.loadEvent a b).rand = s.rand := rfl
@[simp] theorem State.loadEvent_draws (s : State) (a : Addr) (b : Byte) : (s.loadEvent a b).draws = s.draws := rfl

@[simp] theorem State.keyUpEvent_v (s : State) (k : Nibble) : (s.keyUpEvent k).v = s.v := rfl
@[simp] theorem State.keyUpEvent_i (s : State) (k : Nibble) : (s.keyUpEvent k).i = s.i := rfl
@[simp] theorem State.keyUpEvent_pc (s : State) (k : Nibble) : (s.keyUpEvent k).pc = s.pc := rfl
@[simp] theorem State.keyUpEvent_sp (s : State) (k : Nibble) : (s.keyUpEvent k).sp = s.sp := rfl
@[simp] theorem State.keyUpEvent_stack (s : State) (k : Nibble) : (s.keyUpEvent k).stack = s.stack := rfl
@[simp] theorem State.keyUpEvent_dt (s : State) (k : Nibble) : (s.keyUpEvent k).dt = s.dt := rfl
@[simp] theorem State.keyUpEvent_st (s : State) (k : Nibble) : (s.keyUpEvent k).st = s.st := rfl
@[simp] theorem State.keyUpEvent_mem (s : State) (k : Nibble) : (s.keyUpEvent k).mem = s.mem := rfl
@[simp] theorem State.keyUpEvent_fb (s : State) (k : Nibble) : (s.keyUpEvent k).fb = s.fb := rfl
@[simp] theorem State.keyUpEvent_mode (s : State) (k : Nibble) : (s.keyUpEvent k).mode = s.mode := rfl
@[simp] theorem State.keyUpEvent_waitreg (s : State) (k : Nibble) : (s.keyUpEvent k).waitreg = s.waitreg := rfl
@[simp] theorem State.keyUpEvent_fault (s : State) (k : Nibble) : (s.keyUpEvent k).fault = s.fault := rfl
@[simp] theorem State.keyUpEvent_diag (s : State) (k : Nibble) : (s.keyUpEvent k).diag = s.diag := rfl
@[simp] theorem State.keyUpEvent_inputs (s : State) (k : Nibble) : (s.keyUpEvent k).inputs = s.inputs := rfl
@[simp] theorem State.keyUpEvent_rand (s : State) (k : Nibble) : (s.keyUpEvent k).rand = s.rand := rfl
@[simp] theorem State.keyUpEvent_draws (s : State) (k : Nibble) : (s.keyUpEvent k).draws = s.draws := rfl

@[simp] theorem State.tickEvent_v (s : State) : (s.tickEvent).v = s.v := rfl
@[simp] theorem State.tickEvent_i (s : State) : (s.tickEvent).i = s.i := rfl
@[simp] theorem State.tickEvent_pc (s : State) : (s.tickEvent).pc = s.pc := rfl
@[simp] theorem State.tickEvent_sp (s : State) : (s.tickEvent).sp = s.sp := rfl
@[simp] theorem State.tickEvent_stack (s : State) : (s.tickEvent).stack = s.stack := rfl
@[simp] theorem State.tickEvent_dt (s : State) : (s.tickEvent).dt = countDown s.dt := rfl
@[simp] theorem State.tickEvent_st (s : State) : (s.tickEvent).st = countDown s.st := rfl
@[simp] theorem State.tickEvent_mem (s : State) : (s.tickEvent).mem = s.mem := rfl
@[simp] theorem State.tickEvent_fb (s : State) : (s.tickEvent).fb = s.fb := rfl
@[simp] theorem State.tickEvent_keys (s : State) : (s.tickEvent).keys = s.keys := rfl
@[simp] theorem State.tickEvent_mode (s : State) : (s.tickEvent).mode = s.mode := rfl
@[simp] theorem State.tickEvent_waitreg (s : State) : (s.tickEvent).waitreg = s.waitreg := rfl
@[simp] theorem State.tickEvent_fault (s : State) : (s.tickEvent).fault = s.fault := rfl
@[simp] theorem State.tickEvent_diag (s : State) : (s.tickEvent).diag = s.diag := rfl
@[simp] theorem State.tickEvent_inputs (s : State) : (s.tickEvent).inputs = s.inputs := rfl
@[simp] theorem State.tickEvent_rand (s : State) : (s.tickEvent).rand = s.rand := rfl
@[simp] theorem State.tickEvent_draws (s : State) : (s.tickEvent).draws = s.draws := rfl

@[simp] theorem State.beginEdge_v (s : State) : (s.beginEdge).v = s.v := rfl
@[simp] theorem State.beginEdge_i (s : State) : (s.beginEdge).i = s.i := rfl
@[simp] theorem State.beginEdge_pc (s : State) : (s.beginEdge).pc = s.pc := rfl
@[simp] theorem State.beginEdge_sp (s : State) : (s.beginEdge).sp = s.sp := rfl
@[simp] theorem State.beginEdge_stack (s : State) : (s.beginEdge).stack = s.stack := rfl
@[simp] theorem State.beginEdge_dt (s : State) : (s.beginEdge).dt = s.dt := rfl
@[simp] theorem State.beginEdge_st (s : State) : (s.beginEdge).st = s.st := rfl
@[simp] theorem State.beginEdge_mem (s : State) : (s.beginEdge).mem = s.mem := rfl
@[simp] theorem State.beginEdge_fb (s : State) : (s.beginEdge).fb = s.fb := rfl
@[simp] theorem State.beginEdge_keys (s : State) : (s.beginEdge).keys = s.keys := rfl
@[simp] theorem State.beginEdge_mode (s : State) : (s.beginEdge).mode = s.mode := rfl
@[simp] theorem State.beginEdge_waitreg (s : State) : (s.beginEdge).waitreg = s.waitreg := rfl
@[simp] theorem State.beginEdge_fault (s : State) : (s.beginEdge).fault = s.fault := rfl
@[simp] theorem State.beginEdge_inputs (s : State) : (s.beginEdge).inputs = s.nextEdge.2 := rfl
@[simp] theorem State.beginEdge_rand (s : State) : (s.beginEdge).rand = s.rand := rfl
@[simp] theorem State.beginEdge_draws (s : State) : (s.beginEdge).draws = s.draws := rfl

@[simp] theorem State.placeWord_v (s : State) (w : Word) : (s.placeWord w).v = s.v := rfl
@[simp] theorem State.placeWord_i (s : State) (w : Word) : (s.placeWord w).i = s.i := rfl
@[simp] theorem State.placeWord_pc (s : State) (w : Word) : (s.placeWord w).pc = s.pc := rfl
@[simp] theorem State.placeWord_sp (s : State) (w : Word) : (s.placeWord w).sp = s.sp := rfl
@[simp] theorem State.placeWord_stack (s : State) (w : Word) : (s.placeWord w).stack = s.stack := rfl
@[simp] theorem State.placeWord_dt (s : State) (w : Word) : (s.placeWord w).dt = s.dt := rfl
@[simp] theorem State.placeWord_st (s : State) (w : Word) : (s.placeWord w).st = s.st := rfl
@[simp] theorem State.placeWord_mem (s : State) (w : Word) : (s.placeWord w).mem = s.mem.writeRun s.pc.toNat (wordBytes w) := rfl
@[simp] theorem State.placeWord_fb (s : State) (w : Word) : (s.placeWord w).fb = s.fb := rfl
@[simp] theorem State.placeWord_keys (s : State) (w : Word) : (s.placeWord w).keys = s.keys := rfl
@[simp] theorem State.placeWord_mode (s : State) (w : Word) : (s.placeWord w).mode = .running := rfl
@[simp] theorem State.placeWord_waitreg (s : State) (w : Word) : (s.placeWord w).waitreg = s.waitreg := rfl
@[simp] theorem State.placeWord_fault (s : State) (w : Word) : (s.placeWord w).fault = FaultRecord.clear := rfl
@[simp] theorem State.placeWord_diag (s : State) (w : Word) : (s.placeWord w).diag = s.diag := rfl
@[simp] theorem State.placeWord_inputs (s : State) (w : Word) : (s.placeWord w).inputs = [] := rfl
@[simp] theorem State.placeWord_rand (s : State) (w : Word) : (s.placeWord w).rand = s.rand := rfl
@[simp] theorem State.placeWord_draws (s : State) (w : Word) : (s.placeWord w).draws = s.draws := rfl

@[simp] theorem State.skipIf_v (s : State) (c : Bool) : (s.skipIf c).v = s.v := by
  cases c <;> rfl
@[simp] theorem State.skipIf_i (s : State) (c : Bool) : (s.skipIf c).i = s.i := by
  cases c <;> rfl
@[simp] theorem State.skipIf_sp (s : State) (c : Bool) : (s.skipIf c).sp = s.sp := by
  cases c <;> rfl
@[simp] theorem State.skipIf_stack (s : State) (c : Bool) : (s.skipIf c).stack = s.stack := by
  cases c <;> rfl
@[simp] theorem State.skipIf_dt (s : State) (c : Bool) : (s.skipIf c).dt = s.dt := by
  cases c <;> rfl
@[simp] theorem State.skipIf_st (s : State) (c : Bool) : (s.skipIf c).st = s.st := by
  cases c <;> rfl
@[simp] theorem State.skipIf_mem (s : State) (c : Bool) : (s.skipIf c).mem = s.mem := by
  cases c <;> rfl
@[simp] theorem State.skipIf_fb (s : State) (c : Bool) : (s.skipIf c).fb = s.fb := by
  cases c <;> rfl
@[simp] theorem State.skipIf_keys (s : State) (c : Bool) : (s.skipIf c).keys = s.keys := by
  cases c <;> rfl
@[simp] theorem State.skipIf_mode (s : State) (c : Bool) : (s.skipIf c).mode = s.mode := by
  cases c <;> rfl
@[simp] theorem State.skipIf_waitreg (s : State) (c : Bool) : (s.skipIf c).waitreg = s.waitreg := by
  cases c <;> rfl
@[simp] theorem State.skipIf_fault (s : State) (c : Bool) : (s.skipIf c).fault = s.fault := by
  cases c <;> rfl
@[simp] theorem State.skipIf_diag (s : State) (c : Bool) : (s.skipIf c).diag = s.diag := by
  cases c <;> rfl
@[simp] theorem State.skipIf_inputs (s : State) (c : Bool) : (s.skipIf c).inputs = s.inputs := by
  cases c <;> rfl
@[simp] theorem State.skipIf_rand (s : State) (c : Bool) : (s.skipIf c).rand = s.rand := by
  cases c <;> rfl
@[simp] theorem State.skipIf_draws (s : State) (c : Bool) : (s.skipIf c).draws = s.draws := by
  cases c <;> rfl
@[simp] theorem State.skipIf_pc (s : State) (c : Bool) :
    (s.skipIf c).pc = if c then s.pc + 2 else s.pc := by
  cases c <;> rfl

@[simp] theorem State.afterDraw_v (s : State) : s.afterDraw.v = s.v := by
  unfold State.afterDraw; split <;> rfl
@[simp] theorem State.afterDraw_i (s : State) : s.afterDraw.i = s.i := by
  unfold State.afterDraw; split <;> rfl
@[simp] theorem State.afterDraw_pc (s : State) : s.afterDraw.pc = s.pc := by
  unfold State.afterDraw; split <;> rfl
@[simp] theorem State.afterDraw_sp (s : State) : s.afterDraw.sp = s.sp := by
  unfold State.afterDraw; split <;> rfl
@[simp] theorem State.afterDraw_stack (s : State) : s.afterDraw.stack = s.stack := by
  unfold State.afterDraw; split <;> rfl
@[simp] theorem State.afterDraw_dt (s : State) : s.afterDraw.dt = s.dt := by
  unfold State.afterDraw; split <;> rfl
@[simp] theorem State.afterDraw_st (s : State) : s.afterDraw.st = s.st := by
  unfold State.afterDraw; split <;> rfl
@[simp] theorem State.afterDraw_mem (s : State) : s.afterDraw.mem = s.mem := by
  unfold State.afterDraw; split <;> rfl
@[simp] theorem State.afterDraw_fb (s : State) : s.afterDraw.fb = s.fb := by
  unfold State.afterDraw; split <;> rfl
@[simp] theorem State.afterDraw_keys (s : State) : s.afterDraw.keys = s.keys := by
  unfold State.afterDraw; split <;> rfl
@[simp] theorem State.afterDraw_mode (s : State) : s.afterDraw.mode = s.mode := by
  unfold State.afterDraw; split <;> rfl
@[simp] theorem State.afterDraw_waitreg (s : State) : s.afterDraw.waitreg = s.waitreg := by
  unfold State.afterDraw; split <;> rfl
@[simp] theorem State.afterDraw_fault (s : State) : s.afterDraw.fault = s.fault := by
  unfold State.afterDraw; split <;> rfl
@[simp] theorem State.afterDraw_diag (s : State) : s.afterDraw.diag = s.diag := by
  unfold State.afterDraw; split <;> rfl
@[simp] theorem State.afterDraw_inputs (s : State) : s.afterDraw.inputs = s.inputs := by
  unfold State.afterDraw; split <;> rfl
@[simp] theorem State.afterDraw_rand (s : State) : s.afterDraw.rand = s.rand := by
  unfold State.afterDraw; split <;> rfl

@[simp] theorem State.writeRegs_i (bs : List Byte) (s : State) (k : Nat) :
    (s.writeRegs k bs).i = s.i := by
  induction bs generalizing s k with
  | nil => rfl
  | cons b bs ih => simp [State.writeRegs, ih]
@[simp] theorem State.writeRegs_pc (bs : List Byte) (s : State) (k : Nat) :
    (s.writeRegs k bs).pc = s.pc := by
  induction bs generalizing s k with
  | nil => rfl
  | cons b bs ih => simp [State.writeRegs, ih]
@[simp] theorem State.writeRegs_sp (bs : List Byte) (s : State) (k : Nat) :
    (s.writeRegs k bs).sp = s.sp := by
  induction bs generalizing s k with
  | nil => rfl
  | cons b bs ih => simp [State.writeRegs, ih]
@[simp] theorem State.writeRegs_stack (bs : List Byte) (s : State) (k : Nat) :
    (s.writeRegs k bs).stack = s.stack := by
  induction bs generalizing s k with
  | nil => rfl
  | cons b bs ih => simp [State.writeRegs, ih]
@[simp] theorem State.writeRegs_dt (bs : List Byte) (s : State) (k : Nat) :
    (s.writeRegs k bs).dt = s.dt := by
  induction bs generalizing s k with
  | nil => rfl
  | cons b bs ih => simp [State.writeRegs, ih]
@[simp] theorem State.writeRegs_st (bs : List Byte) (s : State) (k : Nat) :
    (s.writeRegs k bs).st = s.st := by
  induction bs generalizing s k with
  | nil => rfl
  | cons b bs ih => simp [State.writeRegs, ih]
@[simp] theorem State.writeRegs_mem (bs : List Byte) (s : State) (k : Nat) :
    (s.writeRegs k bs).mem = s.mem := by
  induction bs generalizing s k with
  | nil => rfl
  | cons b bs ih => simp [State.writeRegs, ih]
@[simp] theorem State.writeRegs_fb (bs : List Byte) (s : State) (k : Nat) :
    (s.writeRegs k bs).fb = s.fb := by
  induction bs generalizing s k with
  | nil => rfl
  | cons b bs ih => simp [State.writeRegs, ih]
@[simp] theorem State.writeRegs_keys (bs : List Byte) (s : State) (k : Nat) :
    (s.writeRegs k bs).keys = s.keys := by
  induction bs generalizing s k with
  | nil => rfl
  | cons b bs ih => simp [State.writeRegs, ih]
@[simp] theorem State.writeRegs_mode (bs : List Byte) (s : State) (k : Nat) :
    (s.writeRegs k bs).mode = s.mode := by
  induction bs generalizing s k with
  | nil => rfl
  | cons b bs ih => simp [State.writeRegs, ih]
@[simp] theorem State.writeRegs_waitreg (bs : List Byte) (s : State) (k : Nat) :
    (s.writeRegs k bs).waitreg = s.waitreg := by
  induction bs generalizing s k with
  | nil => rfl
  | cons b bs ih => simp [State.writeRegs, ih]
@[simp] theorem State.writeRegs_fault (bs : List Byte) (s : State) (k : Nat) :
    (s.writeRegs k bs).fault = s.fault := by
  induction bs generalizing s k with
  | nil => rfl
  | cons b bs ih => simp [State.writeRegs, ih]
@[simp] theorem State.writeRegs_diag (bs : List Byte) (s : State) (k : Nat) :
    (s.writeRegs k bs).diag = s.diag := by
  induction bs generalizing s k with
  | nil => rfl
  | cons b bs ih => simp [State.writeRegs, ih]
@[simp] theorem State.writeRegs_inputs (bs : List Byte) (s : State) (k : Nat) :
    (s.writeRegs k bs).inputs = s.inputs := by
  induction bs generalizing s k with
  | nil => rfl
  | cons b bs ih => simp [State.writeRegs, ih]
@[simp] theorem State.writeRegs_rand (bs : List Byte) (s : State) (k : Nat) :
    (s.writeRegs k bs).rand = s.rand := by
  induction bs generalizing s k with
  | nil => rfl
  | cons b bs ih => simp [State.writeRegs, ih]
@[simp] theorem State.writeRegs_draws (bs : List Byte) (s : State) (k : Nat) :
    (s.writeRegs k bs).draws = s.draws := by
  induction bs generalizing s k with
  | nil => rfl
  | cons b bs ih => simp [State.writeRegs, ih]

end Sys2Proof.Machine
end

