-- ==== Sys2Proof/Laws/Ops.lean ====
section
/-! SUPPORT. One lemma for each shared operation that says what it does: registers, keys, the call stack, the framebuffer,
bounds checks, the fetch, register runs and the timers' countdown. -/

namespace Sys2Proof.Machine

/-! ## Registers and keys -/

@[simp] theorem State.readV_writeV (s : State) (x r : Nibble) (b : Byte) :
    (s.writeV x b).readV r = if r = x then b else s.readV r := by
  by_cases h : r = x
  · subst h; simp [State.readV, State.writeV]
  · have : x.toNat ≠ r.toNat := fun hn => h (BitVec.eq_of_toNat_eq hn).symm
    simp [State.readV, State.writeV, h, this]

@[simp] theorem State.readV_writeWithFlag (s : State) (x r : Nibble) (b : Byte) (f : Bool) :
    (s.writeWithFlag x b f).readV r =
      if r = 0xF#4 then (if f then 1 else 0) else if r = x then b else s.readV r := by
  simp [State.writeWithFlag]

/-- Reading a register depends on the register file alone. -/
theorem State.readV_congr {s t : State} (h : t.v = s.v) (r : Nibble) : t.readV r = s.readV r := by
  simp only [State.readV, h]

theorem State.keyDown_congr {s t : State} (h : t.keys = s.keys) (k : Nibble) : t.keyDown k = s.keyDown k := by
  simp only [State.keyDown, h]

@[simp] theorem State.keyDown_setKey (s : State) (k j : Nibble) (d : Bool) :
    (s.setKey k d).keyDown j = if j = k then d else s.keyDown j := by
  by_cases h : j = k
  · subst h; simp [State.keyDown, State.setKey]
  · have : k.toNat ≠ j.toNat := fun hn => h (BitVec.eq_of_toNat_eq hn).symm
    simp [State.keyDown, State.setKey, h, this]

@[simp] theorem State.readV_advance (s : State) (r : Nibble) : s.advance.readV r = s.readV r := rfl
@[simp] theorem State.readV_raise (s : State) (k : FaultKind) (w : Option Word) (a : Option Nat) (r : Nibble) :
    (s.raise k w a).readV r = s.readV r := rfl
@[simp] theorem State.readV_setKey (s : State) (k r : Nibble) (d : Bool) : (s.setKey k d).readV r = s.readV r := rfl
@[simp] theorem State.readV_skipIf (s : State) (c : Bool) (r : Nibble) : (s.skipIf c).readV r = s.readV r := by
  cases c <;> rfl
@[simp] theorem State.readV_afterDraw (s : State) (r : Nibble) : s.afterDraw.readV r = s.readV r := by
  unfold State.afterDraw; split <;> rfl

@[simp] theorem State.keyDown_writeV (s : State) (x k : Nibble) (b : Byte) : (s.writeV x b).keyDown k = s.keyDown k := rfl
@[simp] theorem State.keyDown_writeWithFlag (s : State) (x k : Nibble) (b : Byte) (f : Bool) :
    (s.writeWithFlag x b f).keyDown k = s.keyDown k := rfl
@[simp] theorem State.keyDown_advance (s : State) (k : Nibble) : s.advance.keyDown k = s.keyDown k := rfl
@[simp] theorem State.keyDown_raise (s : State) (f : FaultKind) (w : Option Word) (a : Option Nat) (k : Nibble) :
    (s.raise f w a).keyDown k = s.keyDown k := rfl
@[simp] theorem State.keyDown_skipIf (s : State) (c : Bool) (k : Nibble) : (s.skipIf c).keyDown k = s.keyDown k := by
  cases c <;> rfl
@[simp] theorem State.keyDown_afterDraw (s : State) (k : Nibble) : s.afterDraw.keyDown k = s.keyDown k :=
  State.keyDown_congr (State.afterDraw_keys s) k
@[simp] theorem State.keyDown_writeRegs (s : State) (n : Nat) (bs : List Byte) (k : Nibble) :
    (s.writeRegs n bs).keyDown k = s.keyDown k :=
  State.keyDown_congr (State.writeRegs_keys bs s n) k

/-- A skip after the advance: ipc + 4 or ipc + 2 (41_flow.md rule R131). -/
theorem State.advance_skipIf_pc (s : State) (c : Bool) :
    (s.advance.skipIf c).pc = if c then s.pc + 4 else s.pc + 2 := by
  cases c
  · rfl
  · show s.pc + 2 + 2 = s.pc + 4
    rw [BitVec.add_assoc]; rfl

/-- The low nibble of a register, as a number. -/
theorem State.toNat_lowNibble (s : State) (x : Nibble) : (s.lowNibble x).toNat = (s.readV x).toNat % 16 := by
  rw [State.lowNibble, BitVec.extractLsb'_toNat]; rfl

/-- An immediate address keeps its value when it is extended. -/
theorem toNat_addrOperand (nnn : Addr) : (addrOperand nnn).toNat = nnn.toNat := by
  have := nnn.isLt
  rw [addrOperand, BitVec.toNat_setWidth]; omega

/-! ## Call stack -/

/-- Push on a stack that is not full (00_scope.md rule R14). -/
theorem State.push_of_lt (s : State) (w : Word) (h : s.sp.val < 16) :
    s.push w = some { s with stack := s.stack.set s.sp.val w h, sp := ⟨s.sp.val + 1, Nat.succ_lt_succ h⟩ } := by
  simp [State.push, h]

/-- Push on a full stack. -/
theorem State.push_of_full (s : State) (w : Word) (h : s.sp.val = 16) : s.push w = none := by
  simp [State.push, h]

/-- Pop from a stack that is not empty (00_scope.md rule R14). -/
theorem State.pop_of_ne (s : State) (h : s.sp.val ≠ 0) :
    ∃ (hl : s.sp.val - 1 < 16), s.pop = some (s.stack[s.sp.val - 1], { s with sp := ⟨s.sp.val - 1, by omega⟩ }) :=
  ⟨by omega, by simp [State.pop, h]⟩

/-- Pop from an empty stack. -/
theorem State.pop_of_empty (s : State) (h : s.sp.val = 0) : s.pop = none := by
  simp [State.pop, h]

/-! ## Framebuffer -/

@[simp] theorem Framebuffer.pixel_blank (r c : Nat) : Framebuffer.blank.pixel r c = false := by
  unfold Framebuffer.pixel Framebuffer.blank
  split <;> simp

theorem Framebuffer.pixel_setPixel (fb : Framebuffer) {r c : Nat} (hr : r < 32) (hc : c < 64) (on : Bool) (r' c' : Nat) :
    (fb.setPixel r c on).pixel r' c' = if r' = r ∧ c' = c then on else fb.pixel r' c' := by
  unfold Framebuffer.setPixel Framebuffer.pixel
  rw [dif_pos (show r < 32 ∧ c < 64 from ⟨hr, hc⟩)]
  by_cases h : r' < 32 ∧ c' < 64
  · rw [dif_pos h, dif_pos h]
    by_cases h1 : r = r'
    · subst h1
      by_cases h2 : c = c'
      · subst h2; simp
      · simp [h2, Ne.symm h2]
    · simp [h1, Ne.symm h1]
  · rw [dif_neg h, dif_neg h, if_neg (by omega)]

/-! ## Bounds checks and the fetch -/

theorem firstOutOfRange_none {a n : Nat} : firstOutOfRange a n = none ↔ n = 0 ∨ a + n ≤ 4096 := by
  unfold firstOutOfRange
  split <;> simp_all

theorem firstOutOfRange_some {a n b : Nat} :
    firstOutOfRange a n = some b ↔ n ≠ 0 ∧ 4096 < a + n ∧ b = max a 4096 := by
  unfold firstOutOfRange Config.memSize
  split
  · simp only [reduceCtorEq, false_iff]; omega
  · simp only [Option.some.injEq]; constructor
    · rintro rfl; omega
    · rintro ⟨-, -, rfl⟩; rfl

/-- The address a bounds check names is out of range, belongs to the run, and is the lowest such (R54). -/
theorem firstOutOfRange_lowest {a n b : Nat} (h : firstOutOfRange a n = some b) :
    4096 ≤ b ∧ a ≤ b ∧ b < a + n ∧ ∀ c, a ≤ c → c < b → c < 4096 := by
  obtain ⟨h1, h2, rfl⟩ := firstOutOfRange_some.mp h
  refine ⟨by omega, by omega, by omega, fun c _ _ => by omega⟩

theorem State.fetch_ok {s : State} (h : s.pc.toNat + 2 ≤ 4096) :
    s.fetch = .ok (wordOfBytes (s.mem.read s.pc.toNat) (s.mem.read (s.pc.toNat + 1))) := by
  rw [State.fetch, firstOutOfRange_none.mpr (Or.inr h)]

theorem State.fetch_error {s : State} (h : 4096 < s.pc.toNat + 2) : s.fetch = .error (max s.pc.toNat 4096) := by
  rw [State.fetch, firstOutOfRange_some.mpr ⟨by omega, h, rfl⟩]

/-- A fetch that gives a word was in range. -/
theorem State.pc_lt_of_fetch {s : State} {w : Word} (h : s.fetch = .ok w) : s.pc.toNat + 2 ≤ 4096 := by
  by_cases hp : s.pc.toNat + 2 ≤ 4096
  · exact hp
  · rw [State.fetch_error (by omega)] at h; cases h

/-! ## Runs of bytes and registers -/

@[simp] theorem Memory.length_readRun (m : Memory) (a n : Nat) : (m.readRun a n).length = n := by
  simp [Memory.readRun]

@[simp] theorem Memory.getElem_readRun (m : Memory) (a n k : Nat) (h : k < (m.readRun a n).length) :
    (m.readRun a n)[k] = m.read (a + k) := by
  simp [Memory.readRun]

@[simp] theorem State.length_regRange (s : State) (x : Nibble) : (s.regRange x).length = x.toNat + 1 := by
  simp [State.regRange]

@[simp] theorem State.getElem_regRange (s : State) (x : Nibble) (k : Nat) (h : k < (s.regRange x).length) :
    (s.regRange x)[k] = s.readV (BitVec.ofNat 4 k) := by
  simp [State.regRange]

@[simp] theorem length_bcdDigits (b : Byte) : (bcdDigits b).length = 3 := rfl

/-- Writing a run of registers: the registers of the run get the bytes, the others keep theirs. -/
theorem State.readV_writeRegs (bs : List Byte) (s : State) (k : Nat) (h : k + bs.length ≤ 16) (r : Nibble) :
    (s.writeRegs k bs).readV r =
      if hr : k ≤ r.toNat ∧ r.toNat < k + bs.length then bs[r.toNat - k]'(by omega) else s.readV r := by
  induction bs generalizing s k with
  | nil => simp [State.writeRegs]
  | cons b bs ih =>
    rw [List.length_cons] at h
    rw [State.writeRegs, ih _ _ (by omega), State.readV_writeV]
    have hk : (r = BitVec.ofNat 4 k) ↔ r.toNat = k := by
      rw [← BitVec.toNat_inj, BitVec.toNat_ofNat, Nat.mod_eq_of_lt (by omega : k < 2 ^ 4)]
    by_cases h0 : r.toNat = k
    · have hn : ¬ (k + 1 ≤ r.toNat ∧ r.toNat < k + 1 + bs.length) := by omega
      have hp : k ≤ r.toNat ∧ r.toNat < k + (b :: bs).length := by rw [List.length_cons]; omega
      rw [dif_neg hn, if_pos (hk.mpr h0), dif_pos hp]
      simp [h0]
    · rw [if_neg (fun hr => h0 (hk.mp hr))]
      by_cases h1 : k + 1 ≤ r.toNat ∧ r.toNat < k + 1 + bs.length
      · have hp : k ≤ r.toNat ∧ r.toNat < k + (b :: bs).length := by rw [List.length_cons]; omega
        rw [dif_pos h1, dif_pos hp]
        obtain ⟨j, hj⟩ : ∃ j, r.toNat - k = j + 1 := ⟨r.toNat - k - 1, by omega⟩
        have hj' : r.toNat - (k + 1) = j := by omega
        simp only [hj, hj', List.getElem_cons_succ]
      · have hn : ¬ (k ≤ r.toNat ∧ r.toNat < k + (b :: bs).length) := by rw [List.length_cons]; omega
        rw [dif_neg h1, dif_neg hn]

/-! ## Timers -/

/-- A timer counts down to 0 and stays there (60_exceptions.md rule R233). -/
theorem toNat_countDown (t : Byte) : (countDown t).toNat = t.toNat - 1 := by
  unfold countDown
  split
  · omega
  · have := t.isLt
    rw [BitVec.toNat_ofNat, Nat.mod_eq_of_lt (by omega)]

end Sys2Proof.Machine
end

