-- ==== Sys2Proof/Laws/Display.lean ====
section
/-! SUPPORT. The blitter (40_display.md rules R104 and R105): what one bit, one row and a whole sprite do to the pixels,
and when they collide. -/

namespace Sys2Proof.Machine

/-- One bit: a 1 bit inside the grid inverts its pixel and collides if it was on. -/
theorem drawBit_spec (bit : Bool) {py : Nat} (hy : py < 32) (px : Nat) (acc : Framebuffer × Bool) :
    (∀ r c, (drawBit bit py px acc).1.pixel r c =
      (acc.1.pixel r c ^^ (decide (r = py ∧ c = px ∧ px < 64) && bit))) ∧
    ((drawBit bit py px acc).2 = true ↔ acc.2 = true ∨ (px < 64 ∧ bit = true ∧ acc.1.pixel py px = true)) := by
  unfold drawBit Config.fbWidth
  by_cases hx : px ≥ 64
  · rw [if_pos hx]
    refine ⟨fun r c => ?_, ?_⟩
    · have : ¬ (r = py ∧ c = px ∧ px < 64) := by omega
      simp [this]
    · have : ¬ px < 64 := by omega
      simp [this]
  · rw [if_neg hx]
    have hx' : px < 64 := by omega
    cases bit
    · simp
    · refine ⟨fun r c => ?_, by simp [hx']⟩
      simp only [if_true, Bool.and_true]
      rw [Framebuffer.pixel_setPixel _ hy hx']
      by_cases h : r = py ∧ c = px
      · obtain ⟨rfl, rfl⟩ := h
        simp [hx']
      · have : ¬ (r = py ∧ c = px ∧ px < 64) := fun h' => h ⟨h'.1, h'.2.1⟩
        simp [h, this]

/-- The first `k` columns of a row. -/
theorem drawColumns_spec (row : Byte) (x0 : Nat) {py : Nat} (hy : py < 32) (acc : Framebuffer × Bool) (k : Nat) :
    (∀ r c, ((List.range k).foldl (fun a c => drawBit (row.getLsbD (7 - c)) py (x0 + c) a) acc).1.pixel r c =
      (acc.1.pixel r c ^^ (decide (r = py ∧ x0 ≤ c ∧ c < x0 + k ∧ c < 64) && row.getLsbD (7 - (c - x0))))) ∧
    (((List.range k).foldl (fun a c => drawBit (row.getLsbD (7 - c)) py (x0 + c) a) acc).2 = true ↔
      acc.2 = true ∨ ∃ c, c < 64 ∧ x0 ≤ c ∧ c < x0 + k ∧ row.getLsbD (7 - (c - x0)) = true ∧
        acc.1.pixel py c = true) := by
  induction k with
  | zero =>
    refine ⟨fun r c => ?_, ?_⟩
    · have : ¬ (r = py ∧ x0 ≤ c ∧ c < x0 + 0 ∧ c < 64) := by omega
      simp only [List.range_zero, List.foldl_nil, this, decide_false, Bool.false_and, Bool.xor_false]
    · simp only [List.range_zero, List.foldl_nil]
      constructor
      · exact Or.inl
      · rintro (h | ⟨c, _, _, _, _⟩)
        · exact h
        · omega
  | succ k ih =>
    rw [List.range_succ, List.foldl_append]
    simp only [List.foldl_cons, List.foldl_nil]
    obtain ⟨hp, hc⟩ := drawBit_spec (row.getLsbD (7 - k)) hy (x0 + k)
      ((List.range k).foldl (fun a c => drawBit (row.getLsbD (7 - c)) py (x0 + c) a) acc)
    refine ⟨fun r c => ?_, ?_⟩
    · rw [hp, ih.1]
      by_cases h : r = py ∧ c = x0 + k ∧ x0 + k < 64
      · obtain ⟨rfl, rfl, h64⟩ := h
        have h1 : ¬ (r = r ∧ x0 ≤ x0 + k ∧ x0 + k < x0 + k ∧ x0 + k < 64) := by omega
        have h2 : (r = r ∧ x0 ≤ x0 + k ∧ x0 + k < x0 + (k + 1) ∧ x0 + k < 64) := by omega
        have h3 : x0 + k - x0 = k := by omega
        simp [h3, h64]
      · have h1 : (r = py ∧ x0 ≤ c ∧ c < x0 + k ∧ c < 64) ↔ (r = py ∧ x0 ≤ c ∧ c < x0 + (k + 1) ∧ c < 64) := by
          omega
        simp only [h, h1, decide_false, Bool.false_and, Bool.xor_false]
    · rw [hc, ih.1, ih.2]
      have hn : ¬ (py = py ∧ x0 ≤ x0 + k ∧ x0 + k < x0 + k ∧ x0 + k < 64) := by omega
      rw [decide_eq_false hn, Bool.false_and, Bool.xor_false]
      constructor
      · rintro ((h | ⟨c, h1, h2, h3, h4, h5⟩) | ⟨h1, h2, h3⟩)
        · exact Or.inl h
        · exact Or.inr ⟨c, h1, h2, by omega, h4, h5⟩
        · exact Or.inr ⟨x0 + k, h1, by omega, by omega, by rw [show x0 + k - x0 = k by omega]; exact h2, h3⟩
      · rintro (h | ⟨c, h1, h2, h3, h4, h5⟩)
        · exact Or.inl (Or.inl h)
        · by_cases hk : c = x0 + k
          · subst hk
            rw [show x0 + k - x0 = k by omega] at h4
            exact Or.inr ⟨h1, h4, h5⟩
          · exact Or.inl (Or.inr ⟨c, h1, h2, by omega, h4, h5⟩)

/-- One row of a sprite inside the grid. -/
theorem drawRow_spec (row : Byte) (x0 : Nat) {py : Nat} (hy : py < 32) (acc : Framebuffer × Bool) :
    (∀ r c, (drawRow row x0 py acc).1.pixel r c =
      (acc.1.pixel r c ^^ (decide (r = py ∧ x0 ≤ c ∧ c < x0 + 8 ∧ c < 64) && row.getLsbD (7 - (c - x0))))) ∧
    ((drawRow row x0 py acc).2 = true ↔
      acc.2 = true ∨ ∃ c, c < 64 ∧ x0 ≤ c ∧ c < x0 + 8 ∧ row.getLsbD (7 - (c - x0)) = true ∧
        acc.1.pixel py c = true) :=
  drawColumns_spec row x0 hy acc 8

/-- The bit of a list of sprite rows at pixel (r, c), the sprite's top left corner at (py, x0). -/
def rowsBit (rows : List Byte) (x0 py r c : Nat) : Bool :=
  decide (py ≤ r ∧ r < py + rows.length ∧ x0 ≤ c ∧ c < x0 + 8 ∧ r < 32 ∧ c < 64) &&
    (rows.getD (r - py) 0).getLsbD (7 - (c - x0))

theorem rowsBit_nil (x0 py r c : Nat) : rowsBit [] x0 py r c = false := by
  simp [rowsBit]

theorem rowsBit_cons_head (row : Byte) (rest : List Byte) (x0 py c : Nat) :
    rowsBit (row :: rest) x0 py py c =
      (decide (x0 ≤ c ∧ c < x0 + 8 ∧ py < 32 ∧ c < 64) && row.getLsbD (7 - (c - x0))) := by
  simp [rowsBit]

theorem rowsBit_cons_tail (row : Byte) (rest : List Byte) (x0 : Nat) {py r : Nat} (h : r ≠ py) (c : Nat) :
    rowsBit (row :: rest) x0 py r c = rowsBit rest x0 (py + 1) r c := by
  unfold rowsBit
  rw [List.length_cons]
  by_cases hr : py + 1 ≤ r
  · have hd : r - py = (r - (py + 1)) + 1 := by omega
    have hi : (py ≤ r ∧ r < py + (rest.length + 1) ∧ x0 ≤ c ∧ c < x0 + 8 ∧ r < 32 ∧ c < 64) ↔
        (py + 1 ≤ r ∧ r < py + 1 + rest.length ∧ x0 ≤ c ∧ c < x0 + 8 ∧ r < 32 ∧ c < 64) := by omega
    rw [hd, List.getD_cons_succ, decide_eq_decide.mpr hi]
  · have h1 : ¬ (py ≤ r ∧ r < py + (rest.length + 1) ∧ x0 ≤ c ∧ c < x0 + 8 ∧ r < 32 ∧ c < 64) := by omega
    have h2 : ¬ (py + 1 ≤ r ∧ r < py + 1 + rest.length ∧ x0 ≤ c ∧ c < x0 + 8 ∧ r < 32 ∧ c < 64) := by omega
    rw [decide_eq_false h1, decide_eq_false h2, Bool.false_and, Bool.false_and]

/-- A sprite above its own rows has no bit. -/
theorem rowsBit_above (rows : List Byte) (x0 : Nat) {py r : Nat} (h : r < py) (c : Nat) :
    rowsBit rows x0 py r c = false := by
  have : ¬ (py ≤ r ∧ r < py + rows.length ∧ x0 ≤ c ∧ c < x0 + 8 ∧ r < 32 ∧ c < 64) := by omega
  rw [rowsBit, decide_eq_false this, Bool.false_and]

/-- A whole sprite: each of its bits inside the grid inverts its pixel; it collides when one of them meets a pixel that
was on. -/
theorem blit_spec (rows : List Byte) (x0 py : Nat) (acc : Framebuffer × Bool) :
    (∀ r c, (blit rows x0 py acc).1.pixel r c = (acc.1.pixel r c ^^ rowsBit rows x0 py r c)) ∧
    ((blit rows x0 py acc).2 = true ↔
      acc.2 = true ∨ ∃ r c, rowsBit rows x0 py r c = true ∧ acc.1.pixel r c = true) := by
  induction rows generalizing py acc with
  | nil => simp [blit, rowsBit_nil]
  | cons row rest ih =>
    rw [blit]
    by_cases hy : py ≥ 32
    · have hno : ∀ r c, rowsBit (row :: rest) x0 py r c = false := fun r c => by
        have : ¬ (py ≤ r ∧ r < py + (row :: rest).length ∧ x0 ≤ c ∧ c < x0 + 8 ∧ r < 32 ∧ c < 64) := by omega
        rw [rowsBit, decide_eq_false this, Bool.false_and]
      have hno' : ∀ r c, rowsBit rest x0 (py + 1) r c = false := fun r c => by
        have : ¬ (py + 1 ≤ r ∧ r < py + 1 + rest.length ∧ x0 ≤ c ∧ c < x0 + 8 ∧ r < 32 ∧ c < 64) := by omega
        rw [rowsBit, decide_eq_false this, Bool.false_and]
      rw [if_pos hy]
      obtain ⟨h1, h2⟩ := ih (py + 1) acc
      exact ⟨fun r c => by rw [h1, hno, hno'], by rw [h2]; simp [hno, hno']⟩
    · rw [if_neg hy]
      have hy' : py < 32 := by omega
      obtain ⟨h1, h2⟩ := ih (py + 1) (drawRow row x0 py acc)
      obtain ⟨d1, d2⟩ := drawRow_spec row x0 hy' acc
      refine ⟨fun r c => ?_, ?_⟩
      · rw [h1, d1]
        by_cases hr : r = py
        · subst hr
          rw [rowsBit_above rest x0 (Nat.lt_succ_self r), rowsBit_cons_head, Bool.xor_false]
          congr 2
          exact decide_eq_decide.mpr (by omega)
        · have : ¬ (r = py ∧ x0 ≤ c ∧ c < x0 + 8 ∧ c < 64) := fun h => hr h.1
          rw [decide_eq_false this, Bool.false_and, Bool.xor_false, rowsBit_cons_tail row rest x0 hr]
      · rw [h2, d2]
        constructor
        · rintro ((h | ⟨c, hc, hx, hx', hb, hp⟩) | ⟨r, c, hb, hp⟩)
          · exact Or.inl h
          · refine Or.inr ⟨py, c, ?_, hp⟩
            rw [rowsBit_cons_head, hb, Bool.and_true, decide_eq_true_eq]
            omega
          · have hr : r ≠ py := fun hr => by
              subst hr; rw [rowsBit_above rest x0 (Nat.lt_succ_self r)] at hb; cases hb
            refine Or.inr ⟨r, c, by rw [rowsBit_cons_tail row rest x0 hr]; exact hb, ?_⟩
            have : ¬ (r = py ∧ x0 ≤ c ∧ c < x0 + 8 ∧ c < 64) := fun h => hr h.1
            rwa [d1, decide_eq_false this, Bool.false_and, Bool.xor_false] at hp
        · rintro (h | ⟨r, c, hb, hp⟩)
          · exact Or.inl (Or.inl h)
          · by_cases hr : r = py
            · subst hr
              rw [rowsBit_cons_head, Bool.and_eq_true, decide_eq_true_eq] at hb
              exact Or.inl (Or.inr ⟨c, by omega, by omega, by omega, hb.2, hp⟩)
            · refine Or.inr ⟨r, c, by rwa [rowsBit_cons_tail row rest x0 hr] at hb, ?_⟩
              have : ¬ (r = py ∧ x0 ≤ c ∧ c < x0 + 8 ∧ c < 64) := fun h => hr h.1
              rwa [d1, decide_eq_false this, Bool.false_and, Bool.xor_false]

end Sys2Proof.Machine
end

