-- ==== Sys2Proof/Laws/Frame.lean ====
section
/-! SUPPORT. Frames: `SameBut` composes, and one frame lemma for each shape of update the meanings are made of. -/

namespace Sys2Proof.Machine

theorem SameBut.refl (regs : Nibble → Bool) (changed : List Item) (s : State) : SameBut regs changed s s := by
  constructor <;> intros <;> rfl

theorem SameBut.trans {regs : Nibble → Bool} {changed : List Item} {s t u : State}
    (h : SameBut regs changed s t) (h' : SameBut regs changed t u) : SameBut regs changed s u := by
  constructor
  · intro r hr; rw [h'.v r hr, h.v r hr]
  · intro n; rw [h'.i n, h.i n]
  · intro n; rw [h'.pc n, h.pc n]
  · intro n; rw [h'.sp n, h.sp n]
  · intro n; rw [h'.stack n, h.stack n]
  · intro n; rw [h'.dt n, h.dt n]
  · intro n; rw [h'.st n, h.st n]
  · intro n a; rw [h'.mem n a, h.mem n a]
  · intro n r c; rw [h'.fb n r c, h.fb n r c]
  · intro n k; rw [h'.keys n k, h.keys n k]
  · intro n; rw [h'.mode n, h.mode n]
  · intro n; rw [h'.waitreg n, h.waitreg n]
  · intro n; rw [h'.fault n, h.fault n]
  · intro n; rw [h'.diag n, h.diag n]
  · intro n; rw [h'.inputs n, h.inputs n]
  · intro n; rw [h'.rand n, h.rand n]
  · intro n; rw [h'.draws n, h.draws n]

/-- Taking a fault changes the mode and the fault record alone (60_exceptions.md rule R224). -/
theorem State.raise_frame (s : State) (k : FaultKind) (w : Option Word) (a : Option Nat) :
    SameBut noReg [.mode, .fault] s (s.raise k w a) := by
  constructor <;> intros <;> first | rfl | simp_all

/-- A skip changes PC alone (41_flow.md rule R131). -/
theorem State.skip_frame (s : State) (c : Bool) : SameBut noReg [.pc] s (s.advance.skipIf c) := by
  constructor <;> intros <;> first | rfl | simp_all

/-- An instruction that writes V[x] changes V[x] and PC alone. -/
theorem State.writeV_frame (s : State) (x : Nibble) (b : Byte) :
    SameBut (onlyReg x) [.pc] s (s.advance.writeV x b) := by
  constructor <;> intros <;> first | rfl | simp_all [onlyReg]

/-- An instruction that writes V[x] and VF changes these and PC alone. -/
theorem State.writeWithFlag_frame (s : State) (x : Nibble) (b : Byte) (f : Bool) :
    SameBut (regAndFlag x) [.pc] s (s.advance.writeWithFlag x b f) := by
  constructor <;> intros <;> first | rfl | simp_all [regAndFlag]

/-- An instruction that stores changes memory and PC alone. -/
theorem State.store_frame (s : State) (m : Memory) : SameBut noReg [.pc, .mem] s { s.advance with mem := m } := by
  constructor <;> intros <;> first | rfl | simp_all

end Sys2Proof.Machine
end

