-- ==== Sys2Proof/Laws/PerInstr.lean ====
section
/-! SUPPORT. The family TableRow: the word `encode` gives an instruction has the fixed bits of the instruction's row of
spec/opcode_table.json (its "mask" and "match"), one lemma per constructor. -/

namespace Sys2Proof.Laws.TableRow

/-- The row's "mask": the fixed bits of the instruction's words. -/
def mask : Instr → Word
  | .cls _ => 0xf00f#16
  | .ret _ => 0xf00f#16
  | .jp _ => 0xf000#16
  | .call _ => 0xf000#16
  | .seByte _ _ => 0xf000#16
  | .sneByte _ _ => 0xf000#16
  | .seReg _ _ _ => 0xf000#16
  | .ldByte _ _ => 0xf000#16
  | .addByte _ _ => 0xf000#16
  | .ldReg _ _ => 0xf00f#16
  | .orReg _ _ => 0xf00f#16
  | .andReg _ _ => 0xf00f#16
  | .xorReg _ _ => 0xf00f#16
  | .addReg _ _ => 0xf00f#16
  | .sub _ _ => 0xf00f#16
  | .shr _ _ => 0xf00f#16
  | .subn _ _ => 0xf00f#16
  | .shl _ _ => 0xf00f#16
  | .sneReg _ _ _ => 0xf000#16
  | .ldI _ => 0xf000#16
  | .jpV0 _ => 0xf000#16
  | .rnd _ _ => 0xf000#16
  | .drw _ _ _ => 0xf000#16
  | .skp _ => 0xf0ff#16
  | .sknp _ => 0xf0ff#16
  | .ldVxDT _ => 0xf0ff#16
  | .ldVxK _ => 0xf0ff#16
  | .ldDTVx _ => 0xf0ff#16
  | .ldSTVx _ => 0xf0ff#16
  | .addI _ => 0xf0ff#16
  | .ldF _ => 0xf0ff#16
  | .ldB _ => 0xf0ff#16
  | .storeRegs _ => 0xf0ff#16
  | .loadRegs _ => 0xf0ff#16

/-- The row's "match": the values of the fixed bits. -/
def fixedBits : Instr → Word
  | .cls _ => 0x0000#16
  | .ret _ => 0x000e#16
  | .jp _ => 0x1000#16
  | .call _ => 0x2000#16
  | .seByte _ _ => 0x3000#16
  | .sneByte _ _ => 0x4000#16
  | .seReg _ _ _ => 0x5000#16
  | .ldByte _ _ => 0x6000#16
  | .addByte _ _ => 0x7000#16
  | .ldReg _ _ => 0x8000#16
  | .orReg _ _ => 0x8001#16
  | .andReg _ _ => 0x8002#16
  | .xorReg _ _ => 0x8003#16
  | .addReg _ _ => 0x8004#16
  | .sub _ _ => 0x8005#16
  | .shr _ _ => 0x8006#16
  | .subn _ _ => 0x8007#16
  | .shl _ _ => 0x800e#16
  | .sneReg _ _ _ => 0x9000#16
  | .ldI _ => 0xa000#16
  | .jpV0 _ => 0xb000#16
  | .rnd _ _ => 0xc000#16
  | .drw _ _ _ => 0xd000#16
  | .skp _ => 0xe09e#16
  | .sknp _ => 0xe0a1#16
  | .ldVxDT _ => 0xf007#16
  | .ldVxK _ => 0xf00a#16
  | .ldDTVx _ => 0xf015#16
  | .ldSTVx _ => 0xf018#16
  | .addI _ => 0xf01e#16
  | .ldF _ => 0xf029#16
  | .ldB _ => 0xf033#16
  | .storeRegs _ => 0xf055#16
  | .loadRegs _ => 0xf065#16

/-- The instruction's word has the fixed bits of its row. -/
def Statement (i : Instr) : Prop := encode i &&& mask i = fixedBits i

/-- A mask works on the parts of a word one by one. -/
theorem and_cat {a b : Nat} (x m : BitVec a) (y k : BitVec b) : (x ++ y) &&& (m ++ k) = (x &&& m) ++ (y &&& k) :=
  BitVec.and_append

theorem and_nibble (c : Nibble) : c &&& 0xf#4 = c := BitVec.and_allOnes
theorem and_byte (b : Byte) : b &&& 0xff#8 = b := BitVec.and_allOnes

theorem class_nnn (c : Nibble) (r : Addr) :
    BitVec.and (n := 16) (c ++ r) 0xf000#16 = c ++ 0#12 := by
  have h := and_cat c 0xf#4 r 0#12
  rw [and_nibble, BitVec.and_zero] at h
  exact h

theorem class_xnn (c x : Nibble) (r : Byte) :
    BitVec.and (n := 16) (c ++ x ++ r) 0xf000#16 = c ++ 0#4 ++ 0#8 := by
  have h := and_cat (c ++ x) (0xf#4 ++ 0#4) r 0#8
  rw [and_cat c 0xf#4 x 0#4, and_nibble, BitVec.and_zero, BitVec.and_zero] at h
  exact h

theorem class_xyn (c x y n : Nibble) :
    BitVec.and (n := 16) (c ++ x ++ y ++ n) 0xf000#16 = c ++ 0#4 ++ 0#4 ++ 0#4 := by
  have h := and_cat (c ++ x ++ y) (0xf#4 ++ 0#4 ++ 0#4) n 0#4
  rw [and_cat (c ++ x) (0xf#4 ++ 0#4) y 0#4, and_cat c 0xf#4 x 0#4, and_nibble, BitVec.and_zero, BitVec.and_zero, BitVec.and_zero] at h
  exact h

theorem low_nibble_xyn (c x y n : Nibble) :
    BitVec.and (n := 16) (c ++ x ++ y ++ n) 0xf00f#16 = c ++ 0#4 ++ 0#4 ++ n := by
  have h := and_cat (c ++ x ++ y) (0xf#4 ++ 0#4 ++ 0#4) n 0xf#4
  rw [and_cat (c ++ x) (0xf#4 ++ 0#4) y 0#4, and_cat c 0xf#4 x 0#4, and_nibble, BitVec.and_zero, BitVec.and_zero, and_nibble] at h
  exact h

theorem low_nibble_un (c : Nibble) (u : Byte) (n : Nibble) :
    BitVec.and (n := 16) (c ++ u ++ n) 0xf00f#16 = c ++ 0#8 ++ n := by
  have h := and_cat (c ++ u) (0xf#4 ++ 0#8) n 0xf#4
  rw [and_cat c 0xf#4 u 0#8, and_nibble, BitVec.and_zero, and_nibble] at h
  exact h

theorem low_byte_xnn (c x : Nibble) (r : Byte) :
    BitVec.and (n := 16) (c ++ x ++ r) 0xf0ff#16 = c ++ 0#4 ++ r := by
  have h := and_cat (c ++ x) (0xf#4 ++ 0#4) r 0xff#8
  rw [and_cat c 0xf#4 x 0#4, and_nibble, BitVec.and_zero, and_byte] at h
  exact h

theorem cls (u : Byte) : Statement (.cls u) :=
  low_nibble_un 0x0#4 u 0x0#4

theorem ret (u : Byte) : Statement (.ret u) :=
  low_nibble_un 0x0#4 u 0xE#4

theorem jp (nnn : Addr) : Statement (.jp nnn) :=
  class_nnn 0x1#4 nnn

theorem call (nnn : Addr) : Statement (.call nnn) :=
  class_nnn 0x2#4 nnn

theorem seByte (x : Nibble) (nn : Byte) : Statement (.seByte x nn) :=
  class_xnn 0x3#4 x nn

theorem sneByte (x : Nibble) (nn : Byte) : Statement (.sneByte x nn) :=
  class_xnn 0x4#4 x nn

theorem seReg (x y u : Nibble) : Statement (.seReg x y u) :=
  class_xyn 0x5#4 x y u

theorem ldByte (x : Nibble) (nn : Byte) : Statement (.ldByte x nn) :=
  class_xnn 0x6#4 x nn

theorem addByte (x : Nibble) (nn : Byte) : Statement (.addByte x nn) :=
  class_xnn 0x7#4 x nn

theorem ldReg (x y : Nibble) : Statement (.ldReg x y) :=
  low_nibble_xyn 0x8#4 x y 0x0#4

theorem orReg (x y : Nibble) : Statement (.orReg x y) :=
  low_nibble_xyn 0x8#4 x y 0x1#4

theorem andReg (x y : Nibble) : Statement (.andReg x y) :=
  low_nibble_xyn 0x8#4 x y 0x2#4

theorem xorReg (x y : Nibble) : Statement (.xorReg x y) :=
  low_nibble_xyn 0x8#4 x y 0x3#4

theorem addReg (x y : Nibble) : Statement (.addReg x y) :=
  low_nibble_xyn 0x8#4 x y 0x4#4

theorem sub (x y : Nibble) : Statement (.sub x y) :=
  low_nibble_xyn 0x8#4 x y 0x5#4

theorem shr (x u : Nibble) : Statement (.shr x u) :=
  low_nibble_xyn 0x8#4 x u 0x6#4

theorem subn (x y : Nibble) : Statement (.subn x y) :=
  low_nibble_xyn 0x8#4 x y 0x7#4

theorem shl (x u : Nibble) : Statement (.shl x u) :=
  low_nibble_xyn 0x8#4 x u 0xE#4

theorem sneReg (x y u : Nibble) : Statement (.sneReg x y u) :=
  class_xyn 0x9#4 x y u

theorem ldI (nnn : Addr) : Statement (.ldI nnn) :=
  class_nnn 0xA#4 nnn

theorem jpV0 (nnn : Addr) : Statement (.jpV0 nnn) :=
  class_nnn 0xB#4 nnn

theorem rnd (x : Nibble) (nn : Byte) : Statement (.rnd x nn) :=
  class_xnn 0xC#4 x nn

theorem drw (x y n : Nibble) : Statement (.drw x y n) :=
  class_xyn 0xD#4 x y n

theorem skp (x : Nibble) : Statement (.skp x) :=
  low_byte_xnn 0xE#4 x 0x9E#8

theorem sknp (x : Nibble) : Statement (.sknp x) :=
  low_byte_xnn 0xE#4 x 0xA1#8

theorem ldVxDT (x : Nibble) : Statement (.ldVxDT x) :=
  low_byte_xnn 0xF#4 x 0x07#8

theorem ldVxK (x : Nibble) : Statement (.ldVxK x) :=
  low_byte_xnn 0xF#4 x 0x0A#8

theorem ldDTVx (x : Nibble) : Statement (.ldDTVx x) :=
  low_byte_xnn 0xF#4 x 0x15#8

theorem ldSTVx (x : Nibble) : Statement (.ldSTVx x) :=
  low_byte_xnn 0xF#4 x 0x18#8

theorem addI (x : Nibble) : Statement (.addI x) :=
  low_byte_xnn 0xF#4 x 0x1E#8

theorem ldF (x : Nibble) : Statement (.ldF x) :=
  low_byte_xnn 0xF#4 x 0x29#8

theorem ldB (x : Nibble) : Statement (.ldB x) :=
  low_byte_xnn 0xF#4 x 0x33#8

theorem storeRegs (x : Nibble) : Statement (.storeRegs x) :=
  low_byte_xnn 0xF#4 x 0x55#8

theorem loadRegs (x : Nibble) : Statement (.loadRegs x) :=
  low_byte_xnn 0xF#4 x 0x65#8

end Sys2Proof.Laws.TableRow
end

