-- ==== Sys2Proof/Laws/Step.lean ====
section
/-! SUPPORT. What a step can do, said once: the cases of an instruction cycle, of a Step event and of a clock edge. -/

namespace Sys2Proof.Machine

/-- Applying a list of events is applying them one after the other. -/
theorem applyEvents_append (es fs : List Event) (s : State) :
    applyEvents (es ++ fs) s =
      match applyEvents es s with
      | .next t => applyEvents fs t
      | .fault r => .fault r
      | .refused r => .refused r := by
  induction es generalizing s with
  | nil => rfl
  | cons e es ih =>
    rw [List.cons_append, applyEvents, applyEvents]
    cases applyEvent e s with
    | next t => exact ih t
    | fault r => rfl
    | refused r => rfl

@[simp] theorem applyEvents_nil (s : State) : applyEvents [] s = .next s := rfl

theorem applyEvents_cons_next {e : Event} {s t : State} (h : applyEvent e s = .next t) (es : List Event) :
    applyEvents (e :: es) s = applyEvents es t := by
  rw [applyEvents, h]

@[simp] theorem applyEvents_singleton (e : Event) (s : State) : applyEvents [e] s = applyEvent e s := by
  rw [applyEvents]
  cases applyEvent e s <;> rfl

/-- A fetched word is executed as what it decodes to. -/
theorem runCycle_of_fetch {s : State} {w : Word} (h : s.fetch = .ok w) : runCycle s = execDecoded (decode w) s := by
  rw [runCycle, h]

/-- The random input does not matter to the fetch. -/
@[simp] theorem State.fetch_rand (s : State) (r : RandInput) : State.fetch { s with rand := r } = s.fetch := rfl

/-- An instruction cycle faults in the fetch, or executes what the fetched word decodes to. -/
theorem runCycle_cases (s : State) :
    (4096 < s.pc.toNat + 2 ∧ runCycle s = .next (s.raise .memoryFault none (some (max s.pc.toNat 4096)))) ∨
    (s.pc.toNat + 2 ≤ 4096 ∧ ∃ w, s.fetch = .ok w ∧ runCycle s = execDecoded (decode w) s) := by
  by_cases h : s.pc.toNat + 2 ≤ 4096
  · exact Or.inr ⟨h, _, State.fetch_ok h, by rw [runCycle, State.fetch_ok h]⟩
  · have h' : 4096 < s.pc.toNat + 2 := by omega
    exact Or.inl ⟨h', by rw [runCycle, State.fetch_error h']; rfl⟩

/-- A Step event runs a cycle in Running and does nothing in the other two modes. -/
theorem stepEvent_cases (rnd : RandInput) (s : State) :
    (s.mode = .running ∧ stepEvent rnd s = runCycle { s with rand := rnd }) ∨
    (s.mode ≠ .running ∧ stepEvent rnd s = .next s) := by
  unfold stepEvent
  cases h : s.mode <;> simp

/-- With no input pending, a step is a Step event. -/
theorem step_of_no_inputs {s : State} (h : s.inputs = []) : step s = stepEvent .free s.beginEdge := by
  rw [step, clockEdge]
  have : s.nextEdge = ([.step .free], []) := by rw [State.nextEdge, h]
  rw [this, applyEvents_singleton]
  rfl

/-- With an input sample pending, a step applies that sample's events. -/
theorem step_of_inputs {s : State} {p : PortSample} {rest : List PortSample} (h : s.inputs = p :: rest) :
    step s = applyEvents p.events s.beginEdge := by
  rw [step, clockEdge]
  have : s.nextEdge = (p.events, rest) := by rw [State.nextEdge, h]
  rw [this]

/-- The events of an edge are none or a few of the six, a step last. -/
theorem events_of_not_rst {p : PortSample} (h : p.rst = false) :
    p.events =
      (if p.loadWe then [.load p.loadAddr p.loadData] else []) ++
      (if p.keyEvt then [if p.keyDown then .keyDown p.keyIdx else .keyUp p.keyIdx] else []) ++
      (if p.tick then [.tick] else []) ++
      (if p.step then [.step (.driven p.randByte)] else []) := by
  rw [PortSample.events, h]
  rfl

theorem events_of_rst {p : PortSample} (h : p.rst = true) : p.events = [.reset] := by
  rw [PortSample.events, h]
  rfl

/-- A run takes its first step and goes on from there. -/
theorem run_of_step_next {s t : State} (h : step s = .next t) (k : Nat) :
    Sys2Proof.core.run (k + 1) s = Sys2Proof.core.run k t := by
  have h' : Sys2Proof.core.step s = .next t := h
  simp only [Host.Core.run, h']

end Sys2Proof.Machine
end

