-- ==== Sys2Proof/Tests/Slice0.lean ====
section
/-! SUPPORT. Tests. Expected results come from spec/95_test_vectors.md and from the examples in the rules, never from the
model; each comment names the source. The last part has a witness for each statement that has hypotheses. -/

namespace Sys2Proof.Tests

open Sys2Proof Sys2Proof.Machine

/-! ## Helpers -/

/-- The reset state with some general registers set. -/
def withRegs (vs : List (Nibble × Byte)) : State := vs.foldl (fun s p => s.writeV p.1 p.2) State.reset

/-- A state with some bytes of memory stored from an address. -/
def withBytes (s : State) (a : Nat) (bytes : List Byte) : State := { s with mem := s.mem.writeRun a bytes }

/-- A state with one pixel on. -/
def withPixel (s : State) (r c : Nat) : State := { s with fb := s.fb.setPixel r c true }

/-- A clock edge's inputs with nothing driven. -/
def quiet : PortSample := ⟨false, false, 0, false, false, false, 0, false, 0, 0⟩

/-- Does a result answer a next state that meets a test? -/
def answers (r : Result) (p : State → Bool) : Bool :=
  match r with
  | .next t => p t
  | .fault _ => false
  | .refused _ => false

/-- Run the word the decoder is given on a state. -/
def run (w : Word) (s : State) : Result := execDecoded (decode w) s

/-! ## Well-formedness: an ill-formed word for each check (95_test_vectors.md part 2.1, 30_encoding.md R81) -/

theorem test_class0_refuses : class0Ok 0x00E1#16 = false ∧ wordWellFormed 0x00E1#16 = false := by decide
theorem test_class8_refuses : class8Ok 0x8008#16 = false ∧ wordWellFormed 0x8008#16 = false := by decide
theorem test_classE_refuses : classEOk 0xE19F#16 = false ∧ wordWellFormed 0xE19F#16 = false := by decide
theorem test_classF_refuses : classFOk 0xF100#16 = false ∧ wordWellFormed 0xF100#16 = false := by decide
theorem test_checks_accept : wordWellFormed 0x00E0#16 = true ∧ wordWellFormed 0x800E#16 = true ∧
    wordWellFormed 0xE1A1#16 = true ∧ wordWellFormed 0xF165#16 = true := by decide
theorem test_canonical_refuses :
    [Instr.cls 0x00#8, .ret 0xFF#8, .seReg 1 2 1, .sneReg 0xA 0xB 7, .shr 0 1, .shl 0 0xF].map Instr.canonical =
      [false, false, false, false, false, false] := by decide

/-! ## Decoding: for each constructor a word written out from the spec's encoding -/

-- 95_test_vectors.md part 2.1
theorem test_decode_cls : decode 0x00E0#16 = .instr (.cls 0x0E#8) ∧ decode 0x0120#16 = .instr (.cls 0x12#8) := by decide
theorem test_decode_ret : decode 0x00EE#16 = .instr (.ret 0x0E#8) := by decide
-- parts 2.3 to 2.6: the words of the vectors
theorem test_decode_jp : decode 0x1234#16 = .instr (.jp 0x234#12) := by decide
theorem test_decode_call : decode 0x2210#16 = .instr (.call 0x210#12) := by decide
theorem test_decode_seByte : decode 0x3342#16 = .instr (.seByte 3 0x42#8) := by decide
theorem test_decode_sneByte : decode 0x4342#16 = .instr (.sneByte 3 0x42#8) := by decide
theorem test_decode_seReg : decode 0x5120#16 = .instr (.seReg 1 2 0) := by decide
theorem test_decode_ldByte : decode 0x6FAB#16 = .instr (.ldByte 0xF 0xAB#8) := by decide
theorem test_decode_addByte : decode 0x7203#16 = .instr (.addByte 2 0x03#8) := by decide
theorem test_decode_ldReg : decode 0x8370#16 = .instr (.ldReg 3 7) := by decide
theorem test_decode_orReg : decode 0x8011#16 = .instr (.orReg 0 1) := by decide
theorem test_decode_andReg : decode 0x8012#16 = .instr (.andReg 0 1) := by decide
theorem test_decode_xorReg : decode 0x8443#16 = .instr (.xorReg 4 4) := by decide
theorem test_decode_addReg : decode 0x8F14#16 = .instr (.addReg 0xF 1) := by decide
theorem test_decode_sub : decode 0x8015#16 = .instr (.sub 0 1) := by decide
theorem test_decode_shr : decode 0x8016#16 = .instr (.shr 0 1) := by decide
theorem test_decode_subn : decode 0x8017#16 = .instr (.subn 0 1) := by decide
theorem test_decode_shl : decode 0x80FE#16 = .instr (.shl 0 0xF) := by decide
theorem test_decode_sneReg : decode 0x9120#16 = .instr (.sneReg 1 2 0) := by decide
theorem test_decode_ldI : decode 0xA300#16 = .instr (.ldI 0x300#12) := by decide
theorem test_decode_jpV0 : decode 0xB300#16 = .instr (.jpV0 0x300#12) := by decide
theorem test_decode_rnd : decode 0xC30F#16 = .instr (.rnd 3 0x0F#8) := by decide
theorem test_decode_drw : decode 0xD125#16 = .instr (.drw 1 2 5) := by decide
theorem test_decode_skp : decode 0xE29E#16 = .instr (.skp 2) := by decide
theorem test_decode_sknp : decode 0xE2A1#16 = .instr (.sknp 2) := by decide
theorem test_decode_ldVxDT : decode 0xF507#16 = .instr (.ldVxDT 5) := by decide
theorem test_decode_ldVxK : decode 0xF30A#16 = .instr (.ldVxK 3) := by decide
theorem test_decode_ldDTVx : decode 0xF015#16 = .instr (.ldDTVx 0) := by decide
theorem test_decode_ldSTVx : decode 0xF118#16 = .instr (.ldSTVx 1) := by decide
theorem test_decode_addI : decode 0xF21E#16 = .instr (.addI 2) := by decide
theorem test_decode_ldF : decode 0xF029#16 = .instr (.ldF 0) := by decide
theorem test_decode_ldB : decode 0xF033#16 = .instr (.ldB 0) := by decide
theorem test_decode_storeRegs : decode 0xF155#16 = .instr (.storeRegs 1) := by decide
theorem test_decode_loadRegs : decode 0xF265#16 = .instr (.loadRegs 2) := by decide
theorem test_decode_unknown : [0x0123#16, 0x800F#16, 0xE19F#16, 0xF100#16, 0xFFFF#16].map decode =
    [.unknown 0x0123#16, .unknown 0x800F#16, .unknown 0xE19F#16, .unknown 0xF100#16, .unknown 0xFFFF#16] := by decide
-- S1: the fields of D12F
theorem test_fields : fieldCls 0xD12F#16 = 0xD#4 ∧ fieldX 0xD12F#16 = 1#4 ∧ fieldY 0xD12F#16 = 2#4 ∧
    fieldN 0xD12F#16 = 0xF#4 ∧ fieldNN 0xD12F#16 = 0x2F#8 ∧ fieldNNN 0xD12F#16 = 0x12F#12 := by decide
-- 20_memory.md R55: big-endian
theorem test_decode_bytes : decodeBytes [0x80, 0x14, 0xFF] = .instr (.addReg 0 1) [0xFF] ∧
    decodeBytes [0x80] = .truncated [0x80] := by decide
theorem test_decode_table_word : decodeTableWord 16 0x8014 = some (.addReg 0 1) ∧ decodeTableWord 16 0x8008 = none := by decide

/-! ## Display (part 2.2) -/

-- S2
theorem test_cls : answers (run 0x00E0#16 (withPixel State.reset 31 63)) (fun t =>
    !t.fb.pixel 31 63 && t.pc == 0x202#16) = true := by decide
-- sixth and seventh row of part 2.2: F0 at column 62, clipped at the right edge
theorem test_drw_clips : answers (run 0xD121#16 { withBytes (withRegs [(1, 0x3E), (2, 0)]) 0x300 [0xF0] with i := 0x300#16 })
    (fun t => t.fb.pixel 0 62 && t.fb.pixel 0 63 && !t.fb.pixel 0 0 && !t.fb.pixel 0 1 && t.readV 0xF == 0) = true := by decide
-- row "fb[0][1]=1, mem[300]=C0"
theorem test_drw_collides :
    answers (run 0xD121#16 { withPixel (withBytes (withRegs [(1, 0), (2, 0)]) 0x300 [0xC0]) 0 1 with i := 0x300#16 })
      (fun t => t.fb.pixel 0 0 && !t.fb.pixel 0 1 && t.readV 0xF == 1) = true := by decide

/-! ## Control flow (part 2.3) -/

theorem test_ret : answers (run 0x00EE#16 { State.reset with pc := 0x214#16, sp := 1, stack := State.reset.stack.set 0 0x206#16 })
    (fun t => t.pc == 0x206#16 && t.sp == 0 && t.stack[0] == 0x206#16) = true := by decide
theorem test_ret_underflow : answers (run 0x00EE#16 State.reset) (fun t =>
    t.mode == .halted && t.pc == 0x200#16 && t.sp == 0 && t.fault.kind.code == 3#2 && t.fault.word == 0x00EE#16) = true := by
  decide
theorem test_jp : answers (run 0x1234#16 State.reset) (fun t => t.pc == 0x234#16) = true := by decide
theorem test_call : answers (run 0x2210#16 { State.reset with pc := 0x204#16 }) (fun t =>
    t.stack[0] == 0x206#16 && t.sp == 1 && t.pc == 0x210#16) = true := by decide
theorem test_call_overflow : answers (run 0x2300#16 { State.reset with sp := 16 }) (fun t =>
    t.mode == .halted && t.pc == 0x200#16 && t.sp == 16 && t.stack == State.reset.stack && t.fault.kind.code == 2#2) = true := by
  decide
theorem test_jpV0 : answers (run 0xBFFF#16 (withRegs [(0, 0xFF)])) (fun t => t.pc == 0x10FE#16) = true := by decide
theorem test_seByte : answers (run 0x3342#16 (withRegs [(3, 0x42)])) (fun t => t.pc == 0x204#16) = true ∧
    answers (run 0x3343#16 (withRegs [(3, 0x42)])) (fun t => t.pc == 0x202#16) = true := by decide
theorem test_sneByte : answers (run 0x4342#16 (withRegs [(3, 0x42)])) (fun t => t.pc == 0x202#16) = true ∧
    answers (run 0x4300#16 (withRegs [(3, 0x42)])) (fun t => t.pc == 0x204#16) = true := by decide
theorem test_seReg : answers (run 0x5120#16 (withRegs [(1, 7), (2, 7)])) (fun t => t.pc == 0x204#16) = true := by decide
theorem test_sneReg : answers (run 0x9120#16 (withRegs [(1, 7), (2, 8)])) (fun t => t.pc == 0x204#16) = true ∧
    answers (run 0x9110#16 (withRegs [(1, 7)])) (fun t => t.pc == 0x202#16) = true := by decide
theorem test_skp_masks : answers (run 0xE29E#16 ((withRegs [(2, 0x17)]).setKey 7 true)) (fun t => t.pc == 0x204#16) = true := by
  decide
theorem test_sknp : answers (run 0xE2A1#16 (withRegs [(2, 0xF0)])) (fun t => t.pc == 0x204#16) = true ∧
    answers (run 0xE2A1#16 ((withRegs [(2, 0xF0)]).setKey 0 true)) (fun t => t.pc == 0x202#16) = true := by decide

/-! ## Arithmetic and registers (part 2.4) -/

theorem test_ldByte : answers (run 0x6FAB#16 State.reset) (fun t => t.readV 0xF == 0xAB) = true := by decide
theorem test_addByte_no_flag : answers (run 0x7001#16 (withRegs [(0, 0xFF), (0xF, 7)])) (fun t =>
    t.readV 0 == 0 && t.readV 0xF == 7) = true := by decide
theorem test_addByte_vf : answers (run 0x7F01#16 (withRegs [(0xF, 0xFF)])) (fun t => t.readV 0xF == 0) = true := by decide
theorem test_ldReg : answers (run 0x8370#16 (withRegs [(7, 0x99)])) (fun t => t.readV 3 == 0x99) = true := by decide
theorem test_orReg : answers (run 0x8011#16 (withRegs [(0, 0xF0), (1, 0x0F), (0xF, 5)])) (fun t =>
    t.readV 0 == 0xFF && t.readV 0xF == 5) = true := by decide
theorem test_andReg : answers (run 0x8012#16 (withRegs [(0, 0xF0), (1, 0x3C)])) (fun t => t.readV 0 == 0x30) = true := by decide
theorem test_xorReg : answers (run 0x8013#16 (withRegs [(0, 0xFF), (1, 0x0F)])) (fun t => t.readV 0 == 0xF0) = true := by decide
theorem test_addReg : answers (run 0x8014#16 (withRegs [(0, 0x80), (1, 0x80)])) (fun t =>
    t.readV 0 == 0 && t.readV 0xF == 1) = true := by decide
theorem test_addReg_flag_last : answers (run 0x8F14#16 (withRegs [(0xF, 0xC8), (1, 0xC8)])) (fun t => t.readV 0xF == 1) = true := by
  decide
-- S5
theorem test_sub : answers (run 0x8015#16 (withRegs [(0, 3), (1, 5)])) (fun t =>
    t.readV 0 == 0xFE && t.readV 0xF == 0) = true := by decide
theorem test_sub_equal : answers (run 0x8015#16 (withRegs [(0, 5), (1, 5)])) (fun t =>
    t.readV 0 == 0 && t.readV 0xF == 1) = true := by decide
theorem test_subn : answers (run 0x8017#16 (withRegs [(0, 3), (1, 5)])) (fun t =>
    t.readV 0 == 2 && t.readV 0xF == 1) = true := by decide
theorem test_subn_borrow : answers (run 0x8017#16 (withRegs [(0, 5), (1, 3)])) (fun t =>
    t.readV 0 == 0xFE && t.readV 0xF == 0) = true := by decide
theorem test_shr_in_place : answers (run 0x8016#16 (withRegs [(0, 0xFF), (1, 0)])) (fun t =>
    t.readV 0 == 0x7F && t.readV 0xF == 1) = true := by decide
theorem test_shr_flag_last : answers (run 0x8FF6#16 (withRegs [(0xF, 2)])) (fun t => t.readV 0xF == 0) = true := by decide
theorem test_shl : answers (run 0x800E#16 (withRegs [(0, 0x81)])) (fun t =>
    t.readV 0 == 2 && t.readV 0xF == 1) = true := by decide
theorem test_rnd : answers (run 0xC30F#16 { State.reset with rand := .driven 0xA7 }) (fun t => t.readV 3 == 7) = true := by decide

/-! ## Index register and memory (part 2.5) -/

theorem test_ldI : answers (run 0xA300#16 State.reset) (fun t => t.i == 0x300#16) = true := by decide
theorem test_addI_wraps : answers (run 0xF21E#16 { withRegs [(2, 0xFF)] with i := 0xF80#16 }) (fun t => t.i == 0x07F#16) = true := by
  decide
theorem test_ldF_low_nibble : answers (run 0xF029#16 (withRegs [(0, 0x3A)])) (fun t => t.i == 0x032#16) = true := by decide
theorem test_ldB : answers (run 0xF033#16 { withRegs [(0, 0xFE)] with i := 0x300#16 }) (fun t =>
    [0x300, 0x301, 0x302].map t.mem.read == [2, 5, 4]) = true := by decide
theorem test_ldB_fault : answers (run 0xF033#16 { withRegs [(0, 0xFE)] with i := 0xFFE#16 }) (fun t =>
    t.mode == .halted && t.fault.addr == 0x1000#16 && t.mem == [] && t.pc == 0x200#16) = true := by decide
theorem test_storeRegs : answers (run 0xF155#16 { withRegs [(0, 0x12), (1, 0x34)] with i := 0x400#16 }) (fun t =>
    t.mem.read 0x400 == 0x12 && t.mem.read 0x401 == 0x34 && t.i == 0x400#16) = true := by decide
theorem test_storeRegs_fault : answers (run 0xF155#16 { withRegs [(0, 0x12)] with i := 0xFFF#16 }) (fun t =>
    t.mode == .halted && t.fault.addr == 0x1000#16 && t.mem.read 0xFFF == 0) = true := by decide
theorem test_loadRegs : answers (run 0xF265#16 { withBytes (withRegs [(3, 9)]) 0x300 [2, 5, 4] with i := 0x300#16 }) (fun t =>
    t.readV 0 == 2 && t.readV 1 == 5 && t.readV 2 == 4 && t.readV 3 == 9) = true := by decide
theorem test_loadRegs_fault : answers (run 0xF265#16 { withRegs [(0, 9)] with i := 0xFFE#16 }) (fun t =>
    t.mode == .halted && t.readV 0 == 9) = true := by decide

/-! ## Timers, keys and events (parts 2.6 and 2.7) -/

theorem test_ldVxDT : answers (run 0xF507#16 { State.reset with dt := 0x3C }) (fun t => t.readV 5 == 0x3C) = true := by decide
theorem test_ldDTVx : answers (run 0xF015#16 (withRegs [(0, 3)])) (fun t => t.dt == 3) = true := by decide
theorem test_ldSTVx : answers (run 0xF118#16 (withRegs [(1, 2)])) (fun t => t.st == 2 && t.soundOn) = true := by decide
-- S9, with a key already down
theorem test_ldVxK : answers (run 0xF30A#16 (State.reset.setKey 7 true)) (fun t =>
    t.mode == .waitingForKey && t.waitreg == 3 && t.pc == 0x202#16 && t.readV 3 == 0) = true := by decide
theorem test_keydown_resumes :
    answers (step { State.reset with mode := .waitingForKey, waitreg := 0xF, inputs := [{ quiet with keyEvt := true, keyDown := true, keyIdx := 0xC }] })
      (fun t => t.readV 0xF == 0x0C && t.mode == .running && t.keyDown 0xC) = true := by decide
theorem test_keyup_does_not_resume :
    answers (step { State.reset.setKey 7 true with mode := .waitingForKey, inputs := [{ quiet with keyEvt := true, keyIdx := 7 }] })
      (fun t => t.mode == .waitingForKey && !t.keyDown 7) = true := by decide
theorem test_tick : answers (step { State.reset with dt := 2, inputs := [{ quiet with tick := true }] })
    (fun t => t.dt == 1 && t.st == 0 && t.pc == 0x200#16) = true := by decide
-- "Tick and Step F015 in the same cycle": tick first, then the step
theorem test_tick_before_step :
    answers (step { withBytes (withRegs [(0, 9)]) 0x200 [0xF0, 0x15] with dt := 5, inputs := [{ quiet with tick := true, step := true }] })
      (fun t => t.dt == 9) = true := by decide
-- "KeyDown(4) and Step in the same cycle"
theorem test_key_before_step :
    answers (step { withBytes State.reset 0x200 [0x60, 0x05] with
      mode := .waitingForKey, waitreg := 3, inputs := [{ quiet with keyEvt := true, keyDown := true, keyIdx := 4, step := true }] })
      (fun t => t.readV 3 == 4 && t.readV 0 == 5 && t.pc == 0x202#16) = true := by decide
-- "Reset and Step in the same cycle"
theorem test_reset_beats_step :
    answers (step { withRegs [(1, 1)] with mode := .halted, inputs := [{ quiet with rst := true, step := true }] })
      (fun t => t == State.reset) = true := by decide
theorem test_load_when_halted :
    answers (step { State.reset with mode := .halted, inputs := [{ quiet with loadWe := true, loadAddr := 0x300, loadData := 0xAB }] })
      (fun t => t.mem.read 0x300 == 0xAB && t.mode == .halted) = true := by decide
theorem test_unknown : answers (step (withBytes State.reset 0x200 [0x80, 0x08])) (fun t =>
    t.pc == 0x202#16 && t.diag == ⟨true, 0x200#16, 0x8008#16⟩ && t.mode == .running) = true := by decide
theorem test_fetch_fault : answers (step { State.reset with pc := 0xFFF#16 }) (fun t =>
    t.mode == .halted && t.fault == ⟨.memoryFault, 0xFFF#16, 0, false, 0x1000#16, true⟩ && t.pc == 0xFFF#16) = true := by decide
theorem test_fetch_fault_above : answers (step { State.reset with pc := 0x10FE#16 }) (fun t =>
    t.fault.addr == 0x10FE#16) = true := by decide
theorem test_step_when_halted : answers (step { State.reset with mode := .halted }) (fun t => t.pc == 0x200#16) = true := by decide
-- S8, first instruction: placed where the reset machine fetches
theorem test_placed_word : answers (step (State.reset.withFetchWord 16 0x6005)) (fun t =>
    t.readV 0 == 5 && t.pc == 0x202#16) = true := by decide

/-! ## Observation (10_state.md R37 and R39) -/

theorem test_codes : Mode.halted.code = 2#2 ∧ FaultKind.memoryFault.code = 1#2 := by decide
theorem test_obs_keys : (State.reset.setKey 9 true).obsKeys = 0x0200#16 := by decide
-- last row of part 2.5
theorem test_font_at_reset : [0, 1, 2, 3, 4].map State.reset.mem.read = [0xF0, 0x90, 0x90, 0x90, 0xF0] := by decide

/-! ## Witnesses: a concrete state and operands that meet the hypotheses of each statement that has some -/

/-- A Halted state a run reaches: RET on an empty stack (program start of part 2.3). -/
def halted : State := State.reset.raise .stackUnderflow (some 0x00EE#16) none

-- n = 0 with I at the last address, and a run that ends on the last byte
theorem test_witness_DrawXorsSpriteAndDetectsCollision :
    ((0 : Nibble) = 0 ∨ ({ State.reset with i := 0xFFF#16 } : State).i.toNat + (0 : Nibble).toNat ≤ 4096) ∧
    ((5 : Nibble) = 0 ∨ ({ State.reset with i := 0xFFB#16 } : State).i.toNat + (5 : Nibble).toNat ≤ 4096) := by decide
-- both collision clauses: a sprite bit on an on pixel, and the same with the pixel off
theorem test_witness_DrawXors_collision :
    ({ withBytes State.reset 0x300 [0x80] with i := 0x300#16 } : State).spriteBit 1 2 1 0 0 = true ∧
    (withPixel State.reset 0 0).fb.pixel 0 0 = true ∧ State.reset.fb.pixel 0 0 = false := by decide
theorem test_witness_DrawTwiceRestoresScreen :
    (1 : Nibble) ≠ 0xF#4 ∧ (2 : Nibble) ≠ 0xF#4 ∧
    ((1 : Nibble) = 0 ∨ ({ State.reset with i := 0xFFF#16 } : State).i.toNat + (1 : Nibble).toNat ≤ 4096) := by decide
theorem test_witness_RetPopsOrUnderflows :
    ({ State.reset with sp := 1 } : State).sp.val ≠ 0 ∧ ({ State.reset with sp := 16 } : State).sp.val ≠ 0 ∧
    State.reset.sp.val = 0 ∧ State.reset.Inv := by decide
-- the fetch after JP faults for FFF and does not for FFE
theorem test_witness_JpSetsProgramCounter :
    answers (exec (.jp 0xFFF#12) State.reset) (fun t => t.fetch.toOption == none) = true ∧
    answers (exec (.jp 0xFFE#12) State.reset) (fun t => t.fetch.toOption != none) = true := by decide
theorem test_witness_JumpToSelfNeverHalts :
    (withBytes State.reset 0x200 [0x12, 0x00]).mode = .running ∧ (withBytes State.reset 0x200 [0x12, 0x00]).inputs = [] ∧
    (withBytes State.reset 0x200 [0x12, 0x00]).pc.toNat = (0x200#12).toNat ∧
    (withBytes State.reset 0x200 [0x12, 0x00]).fetch = .ok (encode (.jp 0x200#12)) :=
  ⟨by decide, by decide, by decide, rfl⟩
theorem test_witness_CallPushesOrOverflows :
    ({ State.reset with sp := 15 } : State).sp.val < 16 ∧ State.reset.sp.val < 16 ∧
    ({ State.reset with sp := 16 } : State).sp.val = 16 := by decide
theorem test_witness_CallToItself :
    (withBytes State.reset 0x200 [0x22, 0x00]).mode = .running ∧ (withBytes State.reset 0x200 [0x22, 0x00]).inputs = [] ∧
    (withBytes State.reset 0x200 [0x22, 0x00]).pc.toNat = (0x200#12).toNat ∧
    (withBytes State.reset 0x200 [0x22, 0x00]).fetch = .ok (encode (.call 0x200#12)) ∧
    (withBytes State.reset 0x200 [0x22, 0x00]).sp.val = 0 := ⟨by decide, by decide, by decide, rfl, by decide⟩
theorem test_witness_CallThenReturnRoundTrips : ({ State.reset with sp := 15 } : State).sp.val < 16 ∧
    answers (exec (.call 0x210#12) { State.reset with sp := 15 }) (fun t =>
      ({ State.reset with stack := t.stack, sp := t.sp } : State).stack == t.stack) = true := by decide
-- FFE + 00 is the last sum whose fetch is in range, FFE + 01 the first that faults
theorem test_witness_JpV0AddsRegisterZero :
    answers (exec (.jpV0 0xFFE#12) (withRegs [(0, 0)])) (fun t => t.fetch.toOption != none) = true ∧
    answers (exec (.jpV0 0xFFE#12) (withRegs [(0, 1)])) (fun t => t.fetch.toOption == none) = true := by decide
theorem test_witness_skips :
    (withRegs [(3, 0x42)]).readV 3 = 0x42 ∧ (withRegs [(3, 0x42)]).readV 3 ≠ 0x43 ∧
    (State.reset.setKey 7 true).keys[(7 : Nat)]? = some true ∧ State.reset.keys[(7 : Nat)]? = some false := by decide
-- x other than F, and each side of the carry, borrow and shift-out conditions
theorem test_witness_arithmetic_clauses :
    (0 : Nibble) ≠ 0xF#4 ∧ (0xFF#8).toNat + (0x00#8).toNat = 255 ∧ (0xFF#8).toNat + (0x01#8).toNat > 255 ∧
    (0x05#8).toNat ≤ (0x05#8).toNat ∧ ¬ (0x06#8).toNat ≤ (0x05#8).toNat ∧
    (0x7F#8).toNat % 2 = 1 ∧ ¬ 128 ≤ (0x7F#8).toNat ∧ 128 ≤ (0x80#8).toNat := by decide
theorem test_witness_RandomByteIsMasked :
    ({ State.reset with rand := .driven 0xA7 } : State).rand = .driven 0xA7 ∧ State.reset.rand = .free := by decide
theorem test_witness_FontGlyphAddress :
    State.reset.mem = State.reset.mem ∧ (State.reset.readV 0).toNat % 16 = 0 ∧
    (withRegs [(0, 0x0F)]).mem = State.reset.mem ∧ ((withRegs [(0, 0x0F)]).readV 0).toNat % 16 = 15 := by decide
theorem test_witness_BcdStoreWritesThreeDigits :
    ({ State.reset with i := 0xFFD#16 } : State).mem.wf = true ∧ ({ State.reset with i := 0xFFD#16 } : State).i.toNat + 3 ≤ 4096 := by
  decide
-- FF55 with I = FF0, the last run that fits (part 2.5); also for BlockLoadReadsRegisters and BlockLoadRestoresBlockStore
theorem test_witness_BlockStoreWritesRegisters :
    ({ State.reset with i := 0xFF0#16 } : State).mem.wf = true ∧
    ({ State.reset with i := 0xFF0#16 } : State).i.toNat + (0xF#4).toNat < 4096 := by decide
theorem test_witness_BlockLoadReadsRegisters : ({ State.reset with i := 0xFF0#16 } : State).i.toNat + (0xF#4).toNat < 4096 := by
  decide
theorem test_witness_BlockLoadRestoresBlockStore :
    ({ State.reset with i := 0x300#16 } : State).mem.wf = true ∧
    ({ State.reset with i := 0x300#16 } : State).i.toNat + (2 : Nibble).toNat < 4096 ∧
    answers (exec (.storeRegs 2) { State.reset with i := 0x300#16 }) (fun t =>
      ({ State.reset with mem := t.mem, i := 0x300#16 } : State).mem == t.mem) = true := by decide
theorem test_witness_StoredBytesAreFetched :
    ({ State.reset with i := 0xFFE#16 } : State).mem.wf = true ∧
    ({ State.reset with i := 0xFFE#16 } : State).i.toNat + (1 : Nibble).toNat < 4096 ∧ 1 ≤ (1 : Nibble).toNat ∧
    answers (exec (.storeRegs 1) { State.reset with i := 0xFFE#16 }) (fun t =>
      ({ State.reset with mem := t.mem, pc := 0xFFE#16 } : State).pc == 0xFFE#16) = true := by decide
-- each of the four instructions one byte past the end, and with I itself out of range
theorem test_witness_RunsOutOfMemoryFault :
    (2 : Nibble).toNat ≠ 0 ∧ 4096 < ({ State.reset with i := 0xFFF#16 } : State).i.toNat + (2 : Nibble).toNat ∧
    4096 < ({ State.reset with i := 0xFFE#16 } : State).i.toNat + 3 ∧
    4096 < ({ State.reset with i := 0xFFF#16 } : State).i.toNat + ((1 : Nibble).toNat + 1) ∧
    4096 < ({ State.reset with i := 0x1000#16 } : State).i.toNat + ((0 : Nibble).toNat + 1) := by decide
theorem test_witness_KeyEventsAndResume :
    ({ State.reset with mode := .waitingForKey } : State).mode = .waitingForKey ∧ State.reset.mode ≠ .waitingForKey ∧
    (3 : Nibble) ≠ 7 := by decide
theorem test_witness_LoadEventWritesOneByte : State.reset.mem.wf = true ∧ (0x000#12) ≠ 0xFFF#12 := by decide
theorem test_witness_StepEventOnlyInRunning :
    State.reset.mode = .running ∧ halted.mode ≠ .running ∧ ({ State.reset with mode := .waitingForKey } : State).mode ≠ .running := by
  decide
theorem test_witness_ClockEdgeAppliesEventsInOrder :
    ({ State.reset with inputs := [{ quiet with rst := true }] } : State).inputs = { quiet with rst := true } :: [] ∧
    ({ quiet with rst := true } : PortSample).rst = true ∧
    ({ State.reset with inputs := [quiet, quiet] } : State).inputs = quiet :: [quiet] ∧ quiet.rst = false := by decide
theorem test_witness_StepRunsDecodedInstruction :
    (withBytes State.reset 0x200 [0x60, 0x05]).mode = .running ∧ (withBytes State.reset 0x200 [0x60, 0x05]).pc.toNat + 2 ≤ 4096 ∧
    decode ((withBytes State.reset 0x200 [0x60, 0x05]).mem.read 0x200 ++ (withBytes State.reset 0x200 [0x60, 0x05]).mem.read 0x201) =
      .instr (.ldByte 0 5) ∧ (withBytes State.reset 0x200 [0x60, 0x05]).inputs = [] := by decide
-- the three clauses at the addresses where they meet
theorem test_witness_FetchIsBigEndianAndChecked :
    4096 ≤ ({ State.reset with pc := 0x1000#16 } : State).pc.toNat ∧ ({ State.reset with pc := 0xFFF#16 } : State).pc.toNat = 4095 ∧
    ({ State.reset with pc := 0xFFE#16 } : State).pc.toNat + 1 < 4096 := by decide
theorem test_witness_FetchOutOfRangeHalts :
    ({ State.reset with pc := 0xFFF#16 } : State).mode = .running ∧ 4095 ≤ ({ State.reset with pc := 0xFFF#16 } : State).pc.toNat ∧
    4095 ≤ ({ State.reset with pc := 0x1000#16 } : State).pc.toNat := by decide
theorem test_witness_UnknownOpcodeIsNoOp :
    (withBytes State.reset 0x200 [0x80, 0x08]).mode = .running ∧
    (withBytes State.reset 0x200 [0x80, 0x08]).fetch = .ok 0x8008#16 ∧ decode 0x8008#16 = .unknown 0x8008#16 :=
  ⟨by decide, rfl, by decide⟩
-- one state for each kind of the taxonomy
theorem test_witness_FaultsArePreciseAndClosed :
    State.reset.mode = .running ∧ ({ State.reset with sp := 16 } : State).mode = .running ∧
    answers (exec (.ret 0x0E#8) State.reset) (fun t => t.mode == .halted && t.fault.kind == .stackUnderflow) = true ∧
    answers (exec (.call 0x300#12) { State.reset with sp := 16 }) (fun t => t.mode == .halted && t.fault.kind == .stackOverflow) = true ∧
    answers (exec (.drw 1 2 3) { State.reset with i := 0xFFE#16 }) (fun t => t.mode == .halted && t.fault.kind == .memoryFault) = true := by
  decide
theorem test_witness_InstructionsWriteOnlyTheirState :
    answers (exec (.storeRegs 1) { State.reset with i := 0xFFE#16 }) (fun t => t.mode != .halted) = true ∧
    answers (exec (.ldVxK 1) State.reset) (fun t => t.mode != .halted) = true := by decide
theorem test_witness_RandomInputReachesOnlyRnd : ∀ (x : Nibble) (nn : Byte), Instr.addReg 0 1 ≠ .rnd x nn := by
  intro x nn h; cases h
theorem test_witness_EncodeInvertsDecode : decode 0x0120#16 = .instr (.cls 0x12#8) ∧ decode 0x80FE#16 = .instr (.shl 0 0xF) := by
  decide
theorem test_witness_IgnoredBitsChangeNothing : ({ State.reset with sp := 1 } : State).sp.val ≠ 0 ∧ State.reset.sp.val = 0 := by
  decide
theorem test_witness_StepKeepsInvariant :
    (withBytes State.reset 0x200 [0xF1, 0x55]).Inv ∧ answers (step (withBytes State.reset 0x200 [0xF1, 0x55])) (fun t => t.mode == .running) = true ∧
    halted.Inv ∧ answers (step halted) (fun t => t.mode == .halted) = true := by decide
theorem test_witness_OnlyResetLeavesHalted :
    answers (step { halted with inputs := [{ quiet with rst := true }] }) (fun t => t.mode != .halted) = true ∧
    answers (step { State.reset with mode := .waitingForKey, inputs := [{ quiet with keyEvt := true, keyDown := true }] })
      (fun t => t.mode != .waitingForKey) = true ∧
    ({ quiet with rst := true } : PortSample).rst = true := by decide
-- no input pending, and a pending edge without a reset
theorem test_witness_HaltedEngineIsFrozen :
    halted.mode = .halted ∧ (∀ p ∈ halted.inputs, p.rst = false) ∧
    ({ halted with inputs := [{ quiet with step := true, tick := true }] } : State).mode = .halted ∧
    (∀ p ∈ ({ halted with inputs := [{ quiet with step := true, tick := true }] } : State).inputs, p.rst = false) := by decide
theorem test_witness_NothingIsStoredOutsideMemory :
    ({ withBytes State.reset 0x200 [0xF1, 0x55] with i := 0xFFE#16 } : State).Inv ∧
    answers (step { withBytes State.reset 0x200 [0xF1, 0x55] with i := 0xFFE#16 }) (fun t => t.mode == .running) = true ∧
    4096 ≤ 0x1000 := by decide
theorem test_witness_UnknownSpaceIsExactlyR81 :
    ((0x8008#16).toNat / 4096 = 0x8 ∧ (0x8008#16).toNat % 16 ∈ [0x8, 0x9, 0xA, 0xB, 0xC, 0xD, 0xF]) ∧
    wordWellFormed 0x800E#16 = true := by decide

end Sys2Proof.Tests
end

section
/-! The rules proofs about one instruction use: what it means that a result is a next state with a property, and the one
shape of the four instructions that check a run of addresses before they do anything (43_index_memory.md rule R187). -/

namespace Sys2Proof.Machine

/-- The result is a next state, and that state has the property `P`. -/
inductive AnswersNext (P : State → Prop) : Result → Prop where
  | next {t : State} (h : P t) : AnswersNext P (.next t)

theorem AnswersNext.exists_next {P : State → Prop} {r : Result} (h : AnswersNext P r) : ∃ t, r = .next t ∧ P t := by
  cases h with
  | next h => exact ⟨_, rfl, h⟩

theorem AnswersNext.of_eq_next {P : State → Prop} {r : Result} {t : State} (h : AnswersNext P r) (e : r = .next t) : P t := by
  subst e
  cases h with
  | next h => exact h

/-- A property that each event keeps is kept by a list of events (60_exceptions.md rule R242). -/
theorem applyEvents_answers {P : State → Prop} (hP : ∀ e s, P s → AnswersNext P (applyEvent e s)) (es : List Event)
    {s : State} (h : P s) : AnswersNext P (applyEvents es s) := by
  induction es generalizing s with
  | nil => exact .next h
  | cons e es ih =>
    obtain ⟨t, he, ht⟩ := (hP e s h).exists_next
    rw [applyEvents_cons_next he]
    exact ih ht

/-- The answer of an instruction that checks the `n` addresses from I first: a MemoryFault on the lowest one out of range,
or else the state `t`. -/
def boundsChecked (i : Instr) (n : Nat) (s t : State) : Result :=
  match firstOutOfRange (s.ea 0) n with
  | some a => .next (s.memoryFault i a)
  | none => .next t

theorem exec_drw (x y n : Nibble) (s : State) :
    exec (.drw x y n) s =
      let drawn := blit (s.mem.readRun (s.ea 0) n.toNat) ((s.readV x).toNat % 64) ((s.readV y).toNat % 32) (s.fb, false)
      boundsChecked (.drw x y n) n.toNat s
        (({ s.advance with fb := drawn.1 }).writeV Config.flagReg (if drawn.2 then 1 else 0)) := rfl

theorem exec_ldB (x : Nibble) (s : State) :
    exec (.ldB x) s =
      boundsChecked (.ldB x) 3 s { s.advance with mem := s.mem.writeRun (s.ea 0) (bcdDigits (s.readV x)) } := rfl

theorem exec_storeRegs (x : Nibble) (s : State) :
    exec (.storeRegs x) s =
      boundsChecked (.storeRegs x) (x.toNat + 1) s { s.advance with mem := s.mem.writeRun (s.ea 0) (s.regRange x) } := rfl

theorem exec_loadRegs (x : Nibble) (s : State) :
    exec (.loadRegs x) s =
      boundsChecked (.loadRegs x) (x.toNat + 1) s
        (s.advance.writeRegs 0 (s.mem.readRun (s.ea 0) (x.toNat + 1))) := rfl

theorem boundsChecked_answers {P : State → Prop} {i : Instr} {n : Nat} {s t : State}
    (hfault : ∀ a, P (s.memoryFault i a)) (hpass : P t) : AnswersNext P (boundsChecked i n s t) := by
  unfold boundsChecked
  split
  · exact .next (hfault _)
  · exact .next hpass

/-- The stack is empty or has a top entry. -/
theorem State.sp_empty_or_top (s : State) : s.sp.val = 0 ∨ ∃ j : Fin 16, s.sp.val = j.val + 1 := by
  by_cases h : s.sp.val = 0
  · exact Or.inl h
  · exact Or.inr ⟨⟨s.sp.val - 1, by omega⟩, (Nat.succ_pred_eq_of_ne_zero h).symm⟩

/-- The stack is full or has a free entry. -/
theorem State.sp_full_or_free (s : State) : s.sp.val = 16 ∨ ∃ j : Fin 16, s.sp.val = j.val := by
  by_cases h : s.sp.val < 16
  · exact Or.inr ⟨⟨s.sp.val, h⟩, rfl⟩
  · exact Or.inl (by omega)

/-- RET on an empty stack underflows (41_flow.md rule R121). -/
theorem exec_ret_of_empty {s : State} (u : Byte) (h : s.sp.val = 0) :
    exec (.ret u) s = .next (s.raise .stackUnderflow (some (encode (.ret u))) none) := by
  show execRet u s = _
  rw [execRet, State.pop_of_empty s.advance h]

/-- RET goes to the top entry and drops it (41_flow.md rule R121). -/
theorem exec_ret_of_top {s : State} (u : Byte) {j : Fin 16} (h : s.sp.val = j.val + 1) :
    exec (.ret u) s = .next { s with pc := s.stack[j], sp := j.castSucc } := by
  have hne : s.sp.val ≠ 0 := by omega
  obtain ⟨hl, hp⟩ := State.pop_of_ne s.advance hne
  obtain rfl : j = ⟨s.sp.val - 1, hl⟩ := Fin.ext (by simp [h])
  show execRet u s = _
  rw [execRet, hp]
  rfl

/-- CALL on a full stack overflows (41_flow.md rule R123). -/
theorem exec_call_of_full {s : State} (nnn : Addr) (h : s.sp.val = 16) :
    exec (.call nnn) s = .next (s.raise .stackOverflow (some (encode (.call nnn))) none) := by
  show execCall nnn s = _
  rw [execCall, State.push_of_full s.advance _ h]

/-- CALL pushes ipc + 2 and jumps (41_flow.md rule R123). -/
theorem exec_call_of_free {s : State} (nnn : Addr) {j : Fin 16} (h : s.sp.val = j.val) :
    exec (.call nnn) s =
      .next { s with stack := s.stack.set j (s.pc + 2), sp := j.succ, pc := addrOperand nnn } := by
  have hlt : s.advance.sp.val < 16 := by rw [State.advance_sp]; omega
  obtain rfl : j = ⟨s.sp.val, hlt⟩ := Fin.ext h.symm
  show execCall nnn s = _
  rw [execCall, State.push_of_lt s.advance _ hlt]
  rfl

end Sys2Proof.Machine
end

section
/-! The invariant of a state (10_state.md R26, R28, R29, R35, R38): what each operation needs to keep it, then that every
instruction, every event and every clock edge keeps it. -/

namespace Sys2Proof.Machine

theorem State.reset_inv : State.reset.Inv := by
  refine ⟨Memory.reset_wf, by decide, by decide, by decide, fun j => ?_⟩
  simp [State.reset]

/-! ## Operations -/

theorem State.Inv.mem_wf {s : State} (h : s.Inv) : s.mem.wf = true := by
  obtain ⟨hmem, -⟩ := h
  exact hmem

theorem State.Inv.stack_le {s : State} (h : s.Inv) (j : Fin 16) : (s.stack[j]).toNat ≤ 0x1000 := by
  obtain ⟨-, -, -, -, hstack⟩ := h
  exact hstack j

theorem State.Inv.withPc {s : State} (h : s.Inv) {p : Word} (hp : p.toNat ≤ 0x10FE) : State.Inv { s with pc := p } := by
  obtain ⟨hmem, hkind, hi, -, hstack⟩ := h
  exact ⟨hmem, hkind, hi, hp, hstack⟩

theorem State.Inv.withI {s : State} (h : s.Inv) {i : Word} (hi : i.toNat < 4096) : State.Inv { s with i := i } := by
  obtain ⟨hmem, hkind, -, hpc, hstack⟩ := h
  exact ⟨hmem, hkind, hi, hpc, hstack⟩

theorem State.Inv.withMem {s : State} (h : s.Inv) {m : Memory} (hm : m.wf = true) : State.Inv { s with mem := m } := by
  obtain ⟨-, hkind, hi, hpc, hstack⟩ := h
  exact ⟨hm, hkind, hi, hpc, hstack⟩

/-- Between two modes other than Halted the fault kind stays None (R35). -/
theorem State.Inv.withMode {s : State} (h : s.Inv) {m : Mode} (hs : s.mode ≠ .halted) (hm : m ≠ .halted) :
    State.Inv { s with mode := m } := by
  obtain ⟨hmem, hkind, hi, hpc, hstack⟩ := h
  exact ⟨hmem, iff_of_true (hkind.mpr hs) hm, hi, hpc, hstack⟩

theorem State.Inv.raise {s : State} (h : s.Inv) {k : FaultKind} (hk : k ≠ .none) (w : Option Word) (a : Option Nat) :
    (s.raise k w a).Inv := by
  obtain ⟨hmem, -, hi, hpc, hstack⟩ := h
  exact ⟨hmem, iff_of_false hk (fun hm => hm rfl), hi, hpc, hstack⟩

/-- A return address in range is a legal stack entry (R26). -/
theorem State.Inv.setStack {s : State} (h : s.Inv) (j : Fin 16) {w : Word} (hw : w.toNat ≤ 0x1000) :
    State.Inv { s with stack := s.stack.set j w } := by
  obtain ⟨hmem, hkind, hi, hpc, hstack⟩ := h
  refine ⟨hmem, hkind, hi, hpc, fun k => ?_⟩
  by_cases hjk : j = k
  · simpa [hjk] using hw
  · have : j.val ≠ k.val := fun hv => hjk (Fin.ext hv)
    simpa [this] using hstack k

theorem State.Inv.writeV {s : State} (h : s.Inv) (x : Nibble) (b : Byte) : (s.writeV x b).Inv := h

theorem State.Inv.writeRegs (bs : List Byte) {s : State} (h : s.Inv) (k : Nat) : (s.writeRegs k bs).Inv := by
  induction bs generalizing s k with
  | nil => exact h
  | cons b bs ih => exact ih (h.writeV _ b) (k + 1)

theorem State.Inv.afterDraw {s : State} (h : s.Inv) : s.afterDraw.Inv := by
  unfold State.afterDraw
  split
  · exact h
  · exact h

/-! ## PC values (R26) -/

/-- A fetch in range leaves room for the advance of PC. -/
theorem toNat_pc_add_two {p : Word} (hp : p.toNat + 2 ≤ 4096) : (p + 2).toNat = p.toNat + 2 := by
  rw [BitVec.toNat_add]
  exact Nat.mod_eq_of_lt (by simp; omega)

theorem State.Inv.advance {s : State} (h : s.Inv) (hpc : s.pc.toNat + 2 ≤ 4096) : s.advance.Inv :=
  h.withPc (by rw [toNat_pc_add_two hpc]; omega)

theorem State.Inv.advance_skipIf {s : State} (h : s.Inv) (hpc : s.pc.toNat + 2 ≤ 4096) (c : Bool) :
    (s.advance.skipIf c).Inv := by
  cases c with
  | false => exact h.advance hpc
  | true =>
    have h2 := toNat_pc_add_two hpc
    refine (h.advance hpc).withPc ?_
    rw [State.advance_pc, BitVec.toNat_add, h2]
    simp; omega

theorem toNat_addrOperand_le (nnn : Addr) : (addrOperand nnn).toNat ≤ 0xFFF := by
  rw [toNat_addrOperand]; omega

/-- The largest PC of all comes from `JP V0, addr` (R26). -/
theorem toNat_jpV0_target_le (nnn : Addr) (b : Byte) : (addrOperand nnn + b.setWidth 16).toNat ≤ 0x10FE := by
  have ha := toNat_addrOperand_le nnn
  have hb : (b.setWidth 16).toNat ≤ 0xFF := by
    rw [BitVec.toNat_setWidth]; omega
  rw [BitVec.toNat_add]; omega

/-! ## I values (R28) -/

theorem toNat_glyphAddr_lt (d : Nibble) : (glyphAddr d).toNat < 4096 := by
  have hd : 0 + 5 * d.toNat < 4096 := by omega
  rw [glyphAddr, BitVec.toNat_ofNat]
  exact Nat.lt_of_le_of_lt (Nat.mod_le _ _) hd

theorem toNat_addI_lt (n : Nat) : (BitVec.ofNat 16 (n % Config.memSize)).toNat < 4096 := by
  rw [BitVec.toNat_ofNat, Config.memSize]; omega

/-! ## Instructions and events -/

/-- An instruction run in mode Running, after a fetch in range, keeps the invariant. -/
theorem exec_inv (i : Instr) {s : State} (h : s.Inv) (hm : s.mode = .running) (hpc : s.pc.toNat + 2 ≤ 4096) :
    AnswersNext State.Inv (exec i s) := by
  have hadv := h.advance hpc
  have hmf : ∀ i a, (s.memoryFault i a).Inv := fun i a => h.raise (by decide) _ _
  cases i with
  | cls u => exact .next hadv
  | ldDTVx x | ldSTVx x => exact .next hadv
  | ldByte x nn | addByte x nn => exact .next (hadv.writeV _ _)
  | ldReg x y | orReg x y | andReg x y | xorReg x y => exact .next (hadv.writeV _ _)
  | ldVxDT x => exact .next (hadv.writeV _ _)
  | addReg x y | sub x y | subn x y | shr x y | shl x y => exact .next ((hadv.writeV _ _).writeV _ _)
  | rnd x nn => exact .next (hadv.afterDraw.writeV _ _)
  | ldVxK x => exact .next (hadv.withMode (by simp [hm]) (by decide))
  | seByte x nn | sneByte x nn => exact .next (h.advance_skipIf hpc _)
  | seReg x y u | sneReg x y u => exact .next (h.advance_skipIf hpc _)
  | skp x | sknp x => exact .next (h.advance_skipIf hpc _)
  | jp nnn => exact .next (h.withPc ((toNat_addrOperand_le nnn).trans (by decide)))
  | jpV0 nnn => exact .next (h.withPc (toNat_jpV0_target_le nnn _))
  | ldI nnn => exact .next (hadv.withI (Nat.lt_succ_of_le (toNat_addrOperand_le nnn)))
  | addI x => exact .next (hadv.withI (toNat_addI_lt _))
  | ldF x => exact .next (hadv.withI (toNat_glyphAddr_lt _))
  | ret u =>
    obtain hsp | ⟨j, hsp⟩ := s.sp_empty_or_top
    · rw [exec_ret_of_empty u hsp]
      exact .next (h.raise (by decide) _ _)
    · rw [exec_ret_of_top u hsp]
      exact .next (h.withPc ((h.stack_le j).trans (by decide)))
  | call nnn =>
    obtain hsp | ⟨j, hsp⟩ := s.sp_full_or_free
    · rw [exec_call_of_full nnn hsp]
      exact .next (h.raise (by decide) _ _)
    · rw [exec_call_of_free nnn hsp]
      have hret : (s.pc + 2).toNat ≤ 0x1000 := by rw [toNat_pc_add_two hpc]; exact hpc
      exact .next ((h.setStack j hret).withPc ((toNat_addrOperand_le nnn).trans (by decide)))
  | drw x y n =>
    rw [exec_drw]
    exact boundsChecked_answers (hmf _) hadv
  | ldB x =>
    rw [exec_ldB]
    exact boundsChecked_answers (hmf _) (hadv.withMem (Memory.writeRun_wf _ h.mem_wf _))
  | storeRegs x =>
    rw [exec_storeRegs]
    exact boundsChecked_answers (hmf _) (hadv.withMem (Memory.writeRun_wf _ h.mem_wf _))
  | loadRegs x =>
    rw [exec_loadRegs]
    exact boundsChecked_answers (hmf _) (hadv.writeRegs _ _)

/-- An instruction cycle keeps the invariant: it faults in the fetch, or runs an instruction or an unknown opcode. -/
theorem runCycle_inv {s : State} (h : s.Inv) (hm : s.mode = .running) : AnswersNext State.Inv (runCycle s) := by
  obtain ⟨-, hr⟩ | ⟨hpc, w, -, hr⟩ := runCycle_cases s
  · rw [hr]
    exact .next (h.raise (by decide) _ _)
  · rw [hr]
    cases decode w with
    | instr i => exact exec_inv i h hm hpc
    | unknown w => exact .next (h.advance hpc)

theorem stepEvent_inv (rnd : RandInput) {s : State} (h : s.Inv) : AnswersNext State.Inv (stepEvent rnd s) := by
  obtain ⟨hm, hr⟩ | ⟨-, hr⟩ := stepEvent_cases rnd s
  · rw [hr]
    exact runCycle_inv (s := { s with rand := rnd }) h hm
  · rw [hr]
    exact .next h

/-- A key-down that ends a wait leaves one mode other than Halted for another. -/
theorem State.Inv.keyDownEvent {s : State} (h : s.Inv) (k : Nibble) : (s.keyDownEvent k).Inv := by
  unfold State.keyDownEvent
  split
  · next hm => exact State.Inv.withMode (s := (s.setKey k true).writeV s.waitreg _) h (by simp [hm]) (by decide)
  · exact h
  · exact h

theorem applyEvent_inv (e : Event) (s : State) (h : s.Inv) : AnswersNext State.Inv (applyEvent e s) := by
  cases e with
  | reset => exact .next State.reset_inv
  | load a b => exact .next (h.withMem (Memory.write_wf h.mem_wf _ b))
  | keyDown k => exact .next (h.keyDownEvent k)
  | keyUp k => exact .next h
  | tick => exact .next h
  | step rnd => exact stepEvent_inv rnd h

/-- Every clock edge, whatever the host delivers, answers a next state with the invariant. -/
theorem step_inv {s : State} (h : s.Inv) : AnswersNext State.Inv (step s) :=
  applyEvents_answers applyEvent_inv s.nextEdge.1 (s := s.beginEdge) h

/-- Settles O51: each operation keeps the invariant, so each instruction, each event and each clock edge does. -/
theorem stepKeepsInvariant : Obligations.StepKeepsInvariant := by
  intro s t h hstep
  exact (step_inv h).of_eq_next hstep

/-- Settles O52: reset memory lists nothing, and PC 0x200 and the zeros are in bounds. -/
theorem resetHasInvariant : Obligations.ResetHasInvariant := State.reset_inv

end Sys2Proof.Machine
end

section
/-! What each instruction may write (10_state.md R22 to R37, 20_memory.md R52): the frame of every instruction that
completes, by the shapes of update of Laws/Frame.lean. -/

namespace Sys2Proof.Machine

/-- Register runs write the registers of the run alone. -/
theorem State.readV_loadRegs (s : State) (x r : Nibble) (bs : List Byte) (hlen : bs.length = x.toNat + 1)
    (hr : regsUpTo x r = false) : (s.writeRegs 0 bs).readV r = s.readV r := by
  have hx : ¬ r.toNat ≤ x.toNat := by simpa [regsUpTo] using hr
  rw [State.readV_writeRegs _ _ _ (by omega), dif_neg (by omega)]

/-- An instruction that loads a register run changes V[0]..V[x] and PC alone (43_index_memory.md rule R186). -/
theorem State.loadRegs_frame (s : State) (x : Nibble) (bs : List Byte) (hlen : bs.length = x.toNat + 1) :
    SameBut (regsUpTo x) [.pc] s (s.advance.writeRegs 0 bs) := by
  constructor
  case v => intro r hr; rw [State.readV_loadRegs _ x r bs hlen hr, State.readV_advance]
  all_goals intros; simp_all

/-- RND changes V[x], PC and the model's draw counter alone (42_alu.md rule R161). -/
theorem State.rnd_frame (s : State) (x : Nibble) (b : Byte) :
    SameBut (onlyReg x) [.pc, .draws] s (s.advance.afterDraw.writeV x b) := by
  constructor <;> intros <;> simp_all [onlyReg]

/-- A drawing changes pixels, VF and PC alone (40_display.md rules R104 and R105). -/
theorem State.draw_frame (s : State) (fb : Framebuffer) (flag : Byte) :
    SameBut (onlyReg Config.flagReg) [.pc, .fb] s (({ s.advance with fb := fb }).writeV Config.flagReg flag) := by
  constructor
  case v =>
    intro r hr
    have hne : r ≠ Config.flagReg := by simpa [onlyReg] using hr
    rw [State.readV_writeV, if_neg hne]
    rfl
  all_goals intros; simp_all [State.keyDown]

/-- A return changes PC and SP alone: the popped entry stays (41_flow.md rule R121). -/
theorem State.return_frame (s : State) (pc : Word) (sp : Fin 17) :
    SameBut noReg [.pc, .sp] s { s with pc := pc, sp := sp } := by
  constructor <;> intros <;> simp_all [State.readV, State.keyDown]

/-- A call changes PC, SP and the stack alone (41_flow.md rule R123). -/
theorem State.call_frame (s : State) (stack : Vector Word 16) (sp : Fin 17) (pc : Word) :
    SameBut noReg [.pc, .sp, .stack] s { s with stack := stack, sp := sp, pc := pc } := by
  constructor <;> intros <;> simp_all [State.readV, State.keyDown]

/-- An instruction that completes leaves alone every piece of state its rule does not name. -/
theorem exec_frame (i : Instr) (s : State) :
    AnswersNext (fun t => t.mode ≠ .halted → SameBut (instrWritesV i) (.pc :: instrWrites i) s t) (exec i s) := by
  cases i with
  | ldByte x nn | addByte x nn => exact .next fun _ => s.writeV_frame x _
  | ldReg x y | orReg x y | andReg x y | xorReg x y => exact .next fun _ => s.writeV_frame x _
  | ldVxDT x => exact .next fun _ => s.writeV_frame x _
  | addReg x y | sub x y | subn x y | shr x y | shl x y => exact .next fun _ => s.writeWithFlag_frame x _ _
  | rnd x nn => exact .next fun _ => s.rnd_frame x _
  | seByte x nn | sneByte x nn => exact .next fun _ => s.skip_frame _
  | seReg x y u | sneReg x y u => exact .next fun _ => s.skip_frame _
  | skp x | sknp x => exact .next fun _ => s.skip_frame _
  | jp a | jpV0 a | cls a | ldI a | addI a | ldF a | ldDTVx a | ldSTVx a | ldVxK a =>
    refine .next fun _ => ?_
    constructor <;> intros <;> simp_all [State.readV, State.keyDown, instrWrites]
  | ret u =>
    obtain hsp | ⟨j, hsp⟩ := s.sp_empty_or_top
    · rw [exec_ret_of_empty u hsp]
      exact .next fun hm => absurd rfl hm
    · rw [exec_ret_of_top u hsp]
      exact .next fun _ => s.return_frame _ _
  | call nnn =>
    obtain hsp | ⟨j, hsp⟩ := s.sp_full_or_free
    · rw [exec_call_of_full nnn hsp]
      exact .next fun hm => absurd rfl hm
    · rw [exec_call_of_free nnn hsp]
      exact .next fun _ => s.call_frame _ _ _
  | drw x y n =>
    rw [exec_drw]
    exact boundsChecked_answers (fun _ hm => absurd rfl hm) (fun _ => s.draw_frame _ _)
  | ldB x =>
    rw [exec_ldB]
    exact boundsChecked_answers (fun _ hm => absurd rfl hm) (fun _ => s.store_frame _)
  | storeRegs x =>
    rw [exec_storeRegs]
    exact boundsChecked_answers (fun _ hm => absurd rfl hm) (fun _ => s.store_frame _)
  | loadRegs x =>
    rw [exec_loadRegs]
    exact boundsChecked_answers (fun _ hm => absurd rfl hm) (fun _ => s.loadRegs_frame x _ (by simp))

/-- The two instructions that store write nothing outside the bytes from I they name (20_memory.md rule R52). -/
theorem exec_mem_outside {i : Instr} (hi : Item.mem ∈ instrWrites i) (s : State) :
    AnswersNext (fun t => ∀ a, a < s.ea 0 ∨ s.ea 0 + instrStoredBytes i ≤ a → t.mem.read a = s.mem.read a)
      (exec i s) := by
  obtain ⟨x, rfl⟩ | ⟨x, rfl⟩ : (∃ x, i = .ldB x) ∨ ∃ x, i = .storeRegs x := by
    cases i <;> simp_all [instrWrites]
  · rw [exec_ldB]
    exact boundsChecked_answers (fun _ _ _ => rfl) fun _ ha => Memory.read_writeRun_outside _ _ ha
  · rw [exec_storeRegs]
    exact boundsChecked_answers (fun _ _ _ => rfl) fun _ ha =>
      Memory.read_writeRun_outside _ _ (by rwa [State.length_regRange])

/-- Settles O40: the frame of each instruction; for the bytes, an instruction that does not store leaves all of memory. -/
theorem instructionsWriteOnlyTheirState : Obligations.InstructionsWriteOnlyTheirState := by
  intro i s t he hm
  have hframe := (exec_frame i s).of_eq_next he hm
  refine ⟨hframe, fun a ha => ?_⟩
  by_cases hi : Item.mem ∈ instrWrites i
  · exact (exec_mem_outside hi s).of_eq_next he a ha
  · exact hframe.mem (by simp [hi]) a

end Sys2Proof.Machine
end

section
/-! Nothing reads ST, waitreg, the fault record or the diagnostic outputs (10_state.md R32 to R35 and R40, 60_exceptions.md
R227). -/

namespace Sys2Proof.Machine

/-- `s` with other values in the four pieces of state that no instruction reads. -/
def State.withHidden (s : State) (st : Byte) (waitreg : Nibble) (fault : FaultRecord) (diag : DiagPort) : State :=
  { s with st := st, waitreg := waitreg, fault := fault, diag := diag }

theorem State.withHidden_frame (s : State) (st : Byte) (waitreg : Nibble) (fault : FaultRecord) (diag : DiagPort) :
    SameBut noReg [.st, .waitreg, .fault, .diag] s (s.withHidden st waitreg fault diag) := by
  constructor <;> intros <;> simp_all [State.readV, State.keyDown, State.withHidden]

/-- Both results are next states, and these agree but for the hidden pieces of state. -/
inductive SameVisible : Result → Result → Prop where
  | next (t : State) (st : Byte) (waitreg : Nibble) (fault : FaultRecord) (diag : DiagPort) :
      SameVisible (.next t) (.next (t.withHidden st waitreg fault diag))

section
variable (s : State) (st : Byte) (waitreg : Nibble) (fault : FaultRecord) (diag : DiagPort)

theorem skip_withHidden (c : Bool) :
    SameVisible (.next (s.advance.skipIf c)) (.next ((s.withHidden st waitreg fault diag).advance.skipIf c)) := by
  cases c
  · exact .next s.advance st waitreg fault diag
  · exact .next (s.advance.skipIf true) st waitreg fault diag

theorem State.advance_withHidden :
    (s.withHidden st waitreg fault diag).advance = s.advance.withHidden st waitreg fault diag := rfl

theorem State.afterDraw_withHidden :
    (s.withHidden st waitreg fault diag).afterDraw = s.afterDraw.withHidden st waitreg fault diag := by
  unfold State.afterDraw
  rw [show (s.withHidden st waitreg fault diag).rand = s.rand from rfl]
  split <;> rfl

theorem State.writeRegs_withHidden (bs : List Byte) (k : Nat) :
    (s.withHidden st waitreg fault diag).writeRegs k bs = (s.writeRegs k bs).withHidden st waitreg fault diag := by
  induction bs generalizing s k with
  | nil => rfl
  | cons b bs ih => exact ih (s.writeV _ b) (k + 1)

theorem boundsChecked_withHidden (i : Instr) (n : Nat) (t : State) :
    SameVisible (boundsChecked i n s t)
      (boundsChecked i n (s.withHidden st waitreg fault diag) (t.withHidden st waitreg fault diag)) := by
  unfold boundsChecked
  rw [show (s.withHidden st waitreg fault diag).ea 0 = s.ea 0 from rfl]
  split
  · exact .next (s.memoryFault i _) _ _ _ _
  · exact .next t _ _ _ _

/-- No instruction reads a hidden piece: only what it writes there can differ between the two answers. -/
theorem exec_withHidden (i : Instr) : SameVisible (exec i s) (exec i (s.withHidden st waitreg fault diag)) := by
  cases i with
  | ldByte x nn | addByte x nn => exact .next _ _ _ _ _
  | ldReg x y | orReg x y | andReg x y | xorReg x y => exact .next _ _ _ _ _
  | addReg x y | sub x y | subn x y | shr x y | shl x y => exact .next _ _ _ _ _
  | cls u | jp nnn | jpV0 nnn | ldI nnn => exact .next _ _ _ _ _
  | ldVxDT x | ldVxK x | ldDTVx x | ldSTVx x | addI x | ldF x => exact .next _ _ _ _ _
  | rnd x nn =>
    show SameVisible (execRnd x nn s) (execRnd x nn (s.withHidden st waitreg fault diag))
    rw [execRnd, execRnd, State.advance_withHidden, State.afterDraw_withHidden]
    exact .next _ st waitreg fault diag
  | seByte x nn | sneByte x nn => exact skip_withHidden ..
  | seReg x y u | sneReg x y u => exact skip_withHidden ..
  | skp x | sknp x => exact skip_withHidden ..
  | ret u =>
    obtain hsp | ⟨j, hsp⟩ := s.sp_empty_or_top
    · rw [exec_ret_of_empty u hsp, exec_ret_of_empty (s := s.withHidden st waitreg fault diag) u hsp]
      exact .next _ _ _ _ _
    · rw [exec_ret_of_top u hsp, exec_ret_of_top (s := s.withHidden st waitreg fault diag) u hsp]
      exact .next _ _ _ _ _
  | call nnn =>
    obtain hsp | ⟨j, hsp⟩ := s.sp_full_or_free
    · rw [exec_call_of_full nnn hsp, exec_call_of_full (s := s.withHidden st waitreg fault diag) nnn hsp]
      exact .next _ _ _ _ _
    · rw [exec_call_of_free nnn hsp, exec_call_of_free (s := s.withHidden st waitreg fault diag) nnn hsp]
      exact .next _ _ _ _ _
  | drw x y n => exact boundsChecked_withHidden ..
  | ldB x => exact boundsChecked_withHidden ..
  | storeRegs x => exact boundsChecked_withHidden ..
  | loadRegs x =>
    rw [exec_loadRegs, exec_loadRegs, State.advance_withHidden, State.writeRegs_withHidden]
    exact boundsChecked_withHidden ..

end

theorem SameVisible.exists_next {r r' : Result} (h : SameVisible r r') :
    ∃ t t', r = .next t ∧ r' = .next t' ∧ SameBut noReg [.st, .waitreg, .fault, .diag] t t' := by
  cases h with
  | next t st waitreg fault diag => exact ⟨t, _, rfl, rfl, t.withHidden_frame st waitreg fault diag⟩

/-- Settles O41: an instruction takes the two states to next states that again differ in the hidden pieces alone. -/
theorem hiddenStateIsNeverRead : Obligations.HiddenStateIsNeverRead := by
  intro i s st waitreg fault diag
  exact (exec_withHidden s st waitreg fault diag i).exists_next

end Sys2Proof.Machine
end

section
/-! The reset state (10_state.md R41, 43_index_memory.md R183). -/

namespace Sys2Proof.Machine

/-- Above the font, reset leaves zeros. -/
theorem resetByte_above_font {a : Nat} (ha : 80 ≤ a) : resetByte a = 0 := by
  have hlen : fontTable.length ≤ a := ha
  simp [resetByte, List.getElem?_eq_none hlen]

/-- Settles O49: the reset fields, the font table, and zeros above it. -/
theorem resetStateValues : Obligations.ResetStateValues := by
  refine ⟨fun r => ?_, rfl, rfl, rfl, fun j => ?_, rfl, rfl, fun k => ?_, Framebuffer.pixel_blank, rfl, rfl, rfl, by decide,
    by decide, fun a ha => ?_, rfl, rfl⟩
  · simp [State.readV, State.reset]
  · simp [State.reset]
  · simp [State.keyDown, State.reset]
  · exact resetByte_above_font ha

end Sys2Proof.Machine
end

section
/-! The decoder on an encoded instruction (30_encoding.md rules R74 to R80): the first level reads the class back, the
second level the low nibble or the low byte, and the operands come back from their fields. -/

namespace Sys2Proof

/-- Decoding gives back the encoded instruction, the ignored bits of its word included. -/
theorem decode_encode (i : Instr) : decode (encode i) = .instr i := by
  cases i with
  | cls u | ret u => simp [encode, decode, decodeClass0]
  | ldReg x y | orReg x y | andReg x y | xorReg x y => simp [encode, decode, decodeClass8]
  | addReg x y | sub x y | shr x y | subn x y | shl x y => simp [encode, decode, decodeClass8]
  | skp x | sknp x => simp [encode, decode, decodeClassE]
  | ldVxDT x | ldVxK x | ldDTVx x | ldSTVx x | addI x => simp [encode, decode, decodeClassF]
  | ldF x | ldB x | storeRegs x | loadRegs x => simp [encode, decode, decodeClassF]
  | jp nnn | call nnn | ldI nnn | jpV0 nnn => simp [encode, decode]
  | seByte x nn | sneByte x nn | ldByte x nn | addByte x nn | rnd x nn => simp [encode, decode]
  | seReg x y u | sneReg x y u | drw x y u => simp [encode, decode]

/-- All 16 table bits of a word are the word. -/
@[simp] theorem tableWord_toNat (w : Word) : tableWord 16 w.toNat = w := by
  rw [tableWord, Nat.mod_eq_of_lt w.isLt, BitVec.ofNat_toNat, BitVec.setWidth_eq]

end Sys2Proof
end

section
/-! The fetch (20_memory.md rule R55): its checks and byte order, what it reads after a store to the address it reads
from, and the step that runs the fetched word. Then that nothing is stored outside memory (R53). -/

namespace Sys2Proof.Machine

theorem toNat_wordOfBytes (hi lo : Byte) : (wordOfBytes hi lo).toNat = hi.toNat * 256 + lo.toNat := toNat_cat hi lo

/-- Settles O36: the fetch reports the lower address out of range, or joins its two bytes. -/
theorem fetchIsBigEndianAndChecked : Obligations.FetchIsBigEndianAndChecked := by
  intro s
  refine ⟨fun h => ?_, fun h => ?_, fun h => ⟨_, State.fetch_ok h, toNat_wordOfBytes _ _⟩⟩
  · rw [State.fetch_error (by omega), Nat.max_eq_left h]
  · rw [State.fetch_error (by omega), Nat.max_eq_right (by omega), h]

/-- A fetch at the address where a run of two bytes or more was stored reads the first two (R56). -/
theorem State.fetch_of_stored {s : State} {m : Memory} {bs : List Byte} (hwf : m.wf = true)
    (hmem : s.mem = m.writeRun s.pc.toNat bs) (hfit : s.pc.toNat + bs.length ≤ 4096) (hlen : 2 ≤ bs.length) :
    s.fetch = .ok (wordOfBytes bs[0] bs[1]) := by
  have hhi : s.mem.read s.pc.toNat = bs[0] := by
    rw [hmem]; exact Memory.read_writeRun_inside bs hwf (k := 0) hfit (by omega)
  have hlo : s.mem.read (s.pc.toNat + 1) = bs[1] := by
    rw [hmem]; exact Memory.read_writeRun_inside bs hwf hfit (by omega)
  rw [State.fetch_ok (by omega), hhi, hlo]

theorem boundsChecked_of_fits {i : Instr} {n : Nat} {s : State} (t : State) (h : s.ea 0 + n ≤ 4096) :
    boundsChecked i n s t = .next t := by
  rw [boundsChecked, firstOutOfRange_none.mpr (Or.inr h)]

/-- Settles O26: the run stored at I begins with V0 and V1, and the fetch from I reads its first two bytes. -/
theorem storedBytesAreFetched : Obligations.StoredBytesAreFetched := by
  intro x s hwf hfit hx
  have hrun : s.ea 0 + (x.toNat + 1) ≤ 4096 := hfit
  refine ⟨_, (exec_storeRegs x s).trans (boundsChecked_of_fits _ hrun), fun m hmem hpc => ?_⟩
  have hm : m.mem = s.mem.writeRun m.pc.toNat (s.regRange x) := by rw [hmem, hpc]; rfl
  rw [State.fetch_of_stored hwf hm (by rwa [State.length_regRange, hpc]) (by rw [State.length_regRange]; omega),
    State.getElem_regRange, State.getElem_regRange]
  rfl

/-- A word placed at PC is what the fetch reads. -/
theorem State.fetch_placeWord {s : State} (hwf : s.mem.wf = true) (hpc : s.pc.toNat + 2 ≤ 4096) (w : Word) :
    (s.placeWord w).fetch = .ok w := by
  rw [State.fetch_of_stored (s := s.placeWord w) (bs := wordBytes w) hwf rfl hpc (Nat.le_refl 2)]
  exact congrArg Except.ok (wordOfBytes_bytes w)

/-- With no input pending, a step in mode Running executes the word at PC, with a free random input. -/
theorem step_of_fetch {s : State} {w : Word} (hin : s.inputs = []) (hm : s.mode = .running) (hf : s.fetch = .ok w) :
    step s = execDecoded (decode w) { s.beginEdge with rand := .free } := by
  have hcycle : stepEvent .free s.beginEdge = runCycle { s.beginEdge with rand := .free } := by
    obtain ⟨-, hr⟩ | ⟨hne, -⟩ := stepEvent_cases .free s.beginEdge
    · exact hr
    · exact absurd hm hne
  rw [step_of_no_inputs hin, hcycle]
  exact runCycle_of_fetch hf

/-- Placing a word in the reset state changes memory alone: mode, fault record and queue have these values already. -/
theorem State.placeWord_reset_frame (w : Word) : SameBut noReg [.mem] State.reset (State.reset.placeWord w) := by
  constructor
  case mem => intro h; exact absurd (List.mem_singleton.mpr rfl) h
  all_goals intros; rfl

/-- Settles O48: the placed word is fetched, decodes to its instruction, and the step runs that in the same state. -/
theorem placedWordRunsAfterReset : Obligations.PlacedWordRunsAfterReset := by
  intro i
  rw [State.withFetchWord, tableWord_toNat]
  have hf : (State.reset.placeWord (encode i)).fetch = .ok (encode i) :=
    State.fetch_placeWord Memory.reset_wf (by decide) (encode i)
  refine ⟨?_, hf, State.placeWord_reset_frame _⟩
  rw [step_of_fetch rfl rfl hf, decode_encode]
  rfl

/-- Settles O55: the step keeps memory canonical, and a canonical memory reads outside as at reset. -/
theorem nothingIsStoredOutsideMemory : Obligations.NothingIsStoredOutsideMemory := by
  intro s t a h hstep ha
  have ht : t.Inv := (step_inv h).of_eq_next hstep
  rw [Memory.read_outside ht.mem_wf ha, resetByte_above_font (by omega)]

end Sys2Proof.Machine
end

section
/-! The encoding both ways (30_encoding.md rules R71 and R74 to R83): a word is its fields put together, so decoding drops
no bit of it, and the words that decode to no instruction are the four groups of rule R81. -/

namespace Sys2Proof

/-- A word is its four nibbles put together, the class and the low nibble by their values. -/
theorem word_eq_xyn {w : Word} {c n : Nibble} (hc : (fieldCls w).toNat = c.toNat) (hn : (fieldN w).toNat = n.toNat) :
    c ++ fieldX w ++ fieldY w ++ n = w := by
  apply BitVec.eq_of_toNat_eq
  rw [toNat_word_xyn, ← hc, ← hn, toNat_fieldCls, toNat_fieldX, toNat_fieldY, toNat_fieldN]
  omega

/-- A word is its class, its x nibble and its low byte put together, the class and the low byte by their values. -/
theorem word_eq_xnn {w : Word} {c : Nibble} {nn : Byte} (hc : (fieldCls w).toNat = c.toNat)
    (hnn : (fieldNN w).toNat = nn.toNat) : c ++ fieldX w ++ nn = w := by
  apply BitVec.eq_of_toNat_eq
  rw [toNat_word_xnn, ← hc, ← hnn, toNat_fieldCls, toNat_fieldX, toNat_fieldNN]
  omega

/-- A word is its class, the bits class 0x0 ignores and its low nibble put together, the outer two by their values. -/
theorem word_eq_un {w : Word} {c n : Nibble} (hc : (fieldCls w).toNat = c.toNat) (hn : (fieldN w).toNat = n.toNat) :
    c ++ fieldU w ++ n = w := by
  apply BitVec.eq_of_toNat_eq
  rw [toNat_word_un, ← hc, ← hn, toNat_fieldCls, toNat_fieldU, toNat_fieldN]
  omega

/-- A word is its class and its address put together, the class by its value. -/
theorem word_eq_nnn {w : Word} {c : Nibble} (hc : (fieldCls w).toNat = c.toNat) : c ++ fieldNNN w = w := by
  apply BitVec.eq_of_toNat_eq
  rw [toNat_word_nnn, ← hc, toNat_fieldCls, toNat_fieldNNN]
  omega

/-- What a word decodes to keeps the whole word: an instruction encodes to it, and an unknown opcode names it. -/
inductive KeepsWord (w : Word) : Decoded → Prop where
  | instr {i : Instr} (h : encode i = w) : KeepsWord w (.instr i)
  | unknown : KeepsWord w (.unknown w)

theorem decodeClass0_keepsWord {w : Word} (hc : (fieldCls w).toNat = 0x0) : KeepsWord w (decodeClass0 w) := by
  unfold decodeClass0
  split
  case h_3 => exact .unknown
  all_goals next hn => exact .instr (word_eq_un hc hn)

theorem decodeClass8_keepsWord {w : Word} (hc : (fieldCls w).toNat = 0x8) : KeepsWord w (decodeClass8 w) := by
  unfold decodeClass8
  split
  case h_10 => exact .unknown
  all_goals next hn => exact .instr (word_eq_xyn hc hn)

theorem decodeClassE_keepsWord {w : Word} (hc : (fieldCls w).toNat = 0xE) : KeepsWord w (decodeClassE w) := by
  unfold decodeClassE
  split
  case h_3 => exact .unknown
  all_goals next hnn => exact .instr (word_eq_xnn hc hnn)

theorem decodeClassF_keepsWord {w : Word} (hc : (fieldCls w).toNat = 0xF) : KeepsWord w (decodeClassF w) := by
  unfold decodeClassF
  split
  case h_10 => exact .unknown
  all_goals next hnn => exact .instr (word_eq_xnn hc hnn)

/-- The decoder drops no bit of a word (R74 and R83). -/
theorem decode_keepsWord (w : Word) : KeepsWord w (decode w) := by
  unfold decode
  split
  case h_1 hc => exact decodeClass0_keepsWord hc
  case h_9 hc => exact decodeClass8_keepsWord hc
  case h_15 hc => exact decodeClassE_keepsWord hc
  case h_16 =>
    have hc : (fieldCls w).toNat = 0xF := by
      have := (fieldCls w).isLt
      simp only [imp_false] at *
      omega
    exact decodeClassF_keepsWord hc
  -- the classes with an address, those with three operand nibbles, and the rest, with an immediate byte
  case h_2 hc | h_3 hc | h_11 hc | h_12 hc => exact .instr (word_eq_nnn hc)
  case h_6 hc | h_10 hc | h_14 hc => exact .instr (word_eq_xyn hc rfl)
  all_goals next hc => exact .instr (word_eq_xnn hc rfl)

/-- A word that is an instruction's word decodes to that instruction, and no other word does. -/
theorem decode_eq_instr_iff {w : Word} {i : Instr} : decode w = .instr i ↔ encode i = w := by
  refine ⟨fun h => ?_, fun h => h ▸ decode_encode i⟩
  have hk := decode_keepsWord w
  rw [h] at hk
  cases hk with
  | instr he => exact he

/-- A word is an instruction exactly when the decoder does not name it unknown. -/
theorem exists_decode_instr_iff (w : Word) : (∃ i, decode w = .instr i) ↔ ¬ decode w = .unknown w := by
  have hk := decode_keepsWord w
  generalize decode w = d at hk ⊢
  cases hk <;> simp

/-- The four groups of rule R81, by the values of a word's fields. -/
def InUnknownSpace (w : Word) : Prop :=
  (w.toNat / 4096 = 0x0 ∧ w.toNat % 16 ≠ 0x0 ∧ w.toNat % 16 ≠ 0xE) ∨
  (w.toNat / 4096 = 0x8 ∧ w.toNat % 16 ∈ [0x8, 0x9, 0xA, 0xB, 0xC, 0xD, 0xF]) ∨
  (w.toNat / 4096 = 0xE ∧ w.toNat % 256 ∉ [0x9E, 0xA1]) ∨
  (w.toNat / 4096 = 0xF ∧ w.toNat % 256 ∉ [0x07, 0x0A, 0x15, 0x18, 0x1E, 0x29, 0x33, 0x55, 0x65])

theorem decodeClass0_eq_unknown_iff (w : Word) :
    decodeClass0 w = .unknown w ↔ w.toNat % 16 ≠ 0x0 ∧ w.toNat % 16 ≠ 0xE := by
  unfold decodeClass0
  rw [toNat_fieldN]
  split <;> simp_all

theorem decodeClass8_eq_unknown_iff (w : Word) :
    decodeClass8 w = .unknown w ↔ w.toNat % 16 ∈ [0x8, 0x9, 0xA, 0xB, 0xC, 0xD, 0xF] := by
  unfold decodeClass8
  rw [toNat_fieldN]
  split
  case h_10 =>
    simp only [imp_false, List.mem_cons, List.not_mem_nil, or_false, true_iff] at *
    omega
  all_goals simp_all

theorem decodeClassE_eq_unknown_iff (w : Word) :
    decodeClassE w = .unknown w ↔ w.toNat % 256 ∉ [0x9E, 0xA1] := by
  unfold decodeClassE
  rw [toNat_fieldNN]
  split <;> simp_all

theorem decodeClassF_eq_unknown_iff (w : Word) :
    decodeClassF w = .unknown w ↔
      w.toNat % 256 ∉ [0x07, 0x0A, 0x15, 0x18, 0x1E, 0x29, 0x33, 0x55, 0x65] := by
  unfold decodeClassF
  rw [toNat_fieldNN]
  split <;> simp_all

/-- The decoder names a word unknown exactly in the groups of R81: the classes 0x0, 0x8, 0xE and 0xF have one each, and
the other twelve none. -/
theorem decode_eq_unknown_iff (w : Word) : decode w = .unknown w ↔ InUnknownSpace w := by
  unfold decode InUnknownSpace
  rw [toNat_fieldCls]
  split
  case h_1 hc => simp [hc, decodeClass0_eq_unknown_iff]
  case h_9 hc => simp [hc, decodeClass8_eq_unknown_iff]
  case h_15 hc => simp [hc, decodeClassE_eq_unknown_iff]
  case h_16 =>
    have hc : w.toNat / 4096 = 0xF := by
      have := w.isLt
      simp only [imp_false] at *
      omega
    simp [hc, decodeClassF_eq_unknown_iff]
  all_goals next hc => simp [hc]

theorem wordCls_eq_iff (w : Word) (c : Nibble) : wordCls w = c ↔ w.toNat / 4096 = c.toNat := by
  rw [← toNat_fieldCls]; exact BitVec.toNat_inj.symm

theorem wordLowNibble_eq_iff (w : Word) (n : Nibble) : wordLowNibble w = n ↔ w.toNat % 16 = n.toNat := by
  rw [← toNat_fieldN]; exact BitVec.toNat_inj.symm

theorem wordLowByte_eq_iff (w : Word) (nn : Byte) : wordLowByte w = nn ↔ w.toNat % 256 = nn.toNat := by
  rw [← toNat_fieldNN]; exact BitVec.toNat_inj.symm

theorem class0Ok_iff (w : Word) :
    class0Ok w = true ↔ ¬ (w.toNat / 4096 = 0x0 ∧ w.toNat % 16 ≠ 0x0 ∧ w.toNat % 16 ≠ 0xE) := by
  simp [class0Ok, wordCls_eq_iff, wordLowNibble_eq_iff, or_iff_not_imp_left]

theorem class8Ok_iff (w : Word) :
    class8Ok w = true ↔ ¬ (w.toNat / 4096 = 0x8 ∧ w.toNat % 16 ∈ [0x8, 0x9, 0xA, 0xB, 0xC, 0xD, 0xF]) := by
  simp [class8Ok, wordCls_eq_iff, wordLowNibble_eq_iff, imp_iff_not_or]

theorem classEOk_iff (w : Word) :
    classEOk w = true ↔ ¬ (w.toNat / 4096 = 0xE ∧ w.toNat % 256 ∉ [0x9E, 0xA1]) := by
  simp [classEOk, wordCls_eq_iff, wordLowByte_eq_iff, or_iff_not_imp_left]

theorem classFOk_iff (w : Word) :
    classFOk w = true ↔ ¬ (w.toNat / 4096 = 0xF ∧
      w.toNat % 256 ∉ [0x07, 0x0A, 0x15, 0x18, 0x1E, 0x29, 0x33, 0x55, 0x65]) := by
  simp [classFOk, wordCls_eq_iff, wordLowByte_eq_iff, or_iff_not_imp_left]

/-- The four checks of a well-formed word reject the four groups of R81. -/
theorem wordWellFormed_iff (w : Word) : wordWellFormed w = true ↔ ¬ InUnknownSpace w := by
  simp only [wordWellFormed, Bool.and_eq_true, class0Ok_iff, class8Ok_iff, classEOk_iff, classFOk_iff,
    InUnknownSpace, not_or, and_assoc]

end Sys2Proof

namespace Sys2Proof.Machine

/-- Settles O43: each class and sub-field reads back from the word the encoder writes. -/
theorem decodeInvertsEncode : Obligations.DecodeInvertsEncode := decode_encode

/-- Settles O44: the fields the decoder keeps are the whole word. -/
theorem encodeInvertsDecode : Obligations.EncodeInvertsDecode := fun _ _ => decode_eq_instr_iff.mp

/-- Settles O45: the decoder and the well-formedness checks both draw the line at the groups of R81. -/
theorem unknownSpaceIsExactlyR81 : Obligations.UnknownSpaceIsExactlyR81 := by
  intro w
  refine ⟨(decode_eq_unknown_iff w).symm, ?_⟩
  rw [exists_decode_instr_iff, decode_eq_unknown_iff, wordWellFormed_iff]

end Sys2Proof.Machine
end

section
/-! What decoding leaves out of an instruction's effect: the ignored bits (30_encoding.md rules R76, R80 and R82), which
only a fault record shows, and the unknown opcodes (R81 and 60_exceptions.md rule R227), which only pulse the
diagnostic outputs. -/

namespace Sys2Proof.Machine

/-- Two faults of one kind taken in one state differ in the fault record alone. -/
theorem State.raise_raise_frame (s : State) (k : FaultKind) (w w' : Option Word) (a a' : Option Nat) :
    SameBut noReg [.fault] (s.raise k w a) (s.raise k w' a') := by
  constructor
  case fault => intro h; exact absurd (List.mem_singleton.mpr rfl) h
  all_goals intros; rfl

/-- Settles O46: the bits go into the fault record of a RET that underflows, and nowhere else. -/
theorem ignoredBitsChangeNothing : Obligations.IgnoredBitsChangeNothing := by
  intro x y u u' b b' s
  refine ⟨rfl, rfl, rfl, rfl, rfl, ?_⟩
  obtain hsp | ⟨j, hsp⟩ := s.sp_empty_or_top
  · exact ⟨_, _, exec_ret_of_empty b hsp, exec_ret_of_empty b' hsp, fun h => absurd hsp h, fun _ => ⟨rfl, rfl⟩, rfl,
      s.raise_raise_frame _ _ _ _ _⟩
  · exact ⟨_, _, exec_ret_of_top b hsp, exec_ret_of_top b' hsp, fun _ => rfl, fun h => by omega, rfl,
      SameBut.refl _ _ _⟩

/-- A Step event in mode Running executes what the fetched word decodes to. -/
theorem stepEvent_of_fetch (rnd : RandInput) {s : State} {w : Word} (hm : s.mode = .running) (hf : s.fetch = .ok w) :
    stepEvent rnd s = execDecoded (decode w) { s with rand := rnd } := by
  obtain ⟨-, hr⟩ | ⟨hne, -⟩ := stepEvent_cases rnd s
  · exact hr.trans (runCycle_of_fetch hf)
  · exact absurd hm hne

/-- An unknown opcode changes PC and the diagnostic outputs alone, beside the random input of its step. -/
theorem State.unknown_frame (s : State) (rnd : RandInput) (d : DiagPort) :
    SameBut noReg [.pc, .diag, .rand] s { ({ s with rand := rnd } : State).advance with diag := d } := by
  constructor <;> intros <;> simp_all [State.readV, State.keyDown]

/-- Settles O38: the cycle advances PC and drives the diagnostic outputs with ipc and the word. -/
theorem unknownOpcodeIsNoOp : Obligations.UnknownOpcodeIsNoOp := by
  intro rnd s w hm hf hd
  have hexec := stepEvent_of_fetch rnd hm hf
  rw [hd] at hexec
  exact ⟨_, hexec, rfl, rfl, rfl, rfl, s.unknown_frame rnd _⟩

end Sys2Proof.Machine
end

section
/-! The display family (40_display.md): CLS blanks the screen, and DRW is the blitter of Laws/Display.lean on the rows at
I, so that a pixel and the flag are those of the sprite's bits; a second draw at one place follows from two first ones. -/

namespace Sys2Proof.Machine

/-- Another framebuffer beside the advance changes pixels and PC alone. -/
theorem State.screen_frame (s : State) (fb : Framebuffer) : SameBut noReg [.pc, .fb] s { s.advance with fb := fb } := by
  constructor
  case pc | fb => intro h; exact absurd (by decide) h
  all_goals intros; rfl

/-- Settles O1: the words 0uu0 decode to CLS, and the blank screen has no pixel on. -/
theorem clsClearsEveryPixel : Obligations.ClsClearsEveryPixel := by
  intro u s
  exact ⟨decode_encode (.cls u), _, rfl, fun r c _ _ => Framebuffer.pixel_blank r c, rfl, s.screen_frame _⟩

/-- The sprite of a DRW on the screen of `s`, and whether it collides. -/
def State.drawing (s : State) (x y n : Nibble) : Framebuffer × Bool :=
  blit (s.mem.readRun (s.ea 0) n.toNat) ((s.readV x).toNat % 64) ((s.readV y).toNat % 32) (s.fb, false)

/-- DRW with every row in memory draws the sprite and then writes VF (R102 and R105). -/
theorem exec_drw_of_fits (x y : Nibble) {n : Nibble} {s : State} (h : n = 0 ∨ s.i.toNat + n.toNat ≤ 4096) :
    exec (.drw x y n) s =
      .next (({ s.advance with fb := (s.drawing x y n).1 }).writeV Config.flagReg
        (if (s.drawing x y n).2 then 1 else 0)) := by
  have hrun : n.toNat = 0 ∨ s.ea 0 + n.toNat ≤ 4096 := h.imp_left (congrArg BitVec.toNat)
  rw [exec_drw, boundsChecked, firstOutOfRange_none.mpr hrun]
  rfl

/-- The bits the blitter draws are inside the grid (R104). -/
theorem rowsBit_inside_grid {rows : List Byte} {x0 py r c : Nat} (h : rowsBit rows x0 py r c = true) :
    r < 32 ∧ c < 64 := by
  rw [rowsBit, Bool.and_eq_true, decide_eq_true_eq] at h
  omega

/-- Inside the grid, the blitter's bits are the sprite's. -/
theorem State.rowsBit_readRun (s : State) (x y n : Nibble) {r c : Nat} (hr : r < 32) (hc : c < 64) :
    rowsBit (s.mem.readRun (s.ea 0) n.toNat) ((s.readV x).toNat % 64) ((s.readV y).toNat % 32) r c =
      s.spriteBit x y n r c := by
  rw [rowsBit, State.spriteBit, Memory.length_readRun]
  by_cases hrow : (s.readV y).toNat % 32 ≤ r ∧ r < (s.readV y).toNat % 32 + n.toNat
  · have hread : r - (s.readV y).toNat % 32 < (s.mem.readRun (s.ea 0) n.toNat).length := by
      rw [Memory.length_readRun]; omega
    rw [List.getD_eq_getElem _ _ hread, Memory.getElem_readRun]
    simp [hr, hc, State.ea]
  · have hno : ∀ p, ¬ ((s.readV y).toNat % 32 ≤ r ∧ r < (s.readV y).toNat % 32 + n.toNat ∧ p) :=
      fun _ ⟨hlo, hhi, _⟩ => hrow ⟨hlo, hhi⟩
    rw [decide_eq_false (hno _), decide_eq_false (hno _), Bool.false_and, Bool.false_and]

/-- Each bit of the sprite inside the grid inverts its pixel (R104). -/
theorem State.pixel_drawing (s : State) (x y n : Nibble) {r c : Nat} (hr : r < 32) (hc : c < 64) :
    (s.drawing x y n).1.pixel r c = (s.fb.pixel r c ^^ s.spriteBit x y n r c) := by
  obtain ⟨hpixel, -⟩ := blit_spec (s.mem.readRun (s.ea 0) n.toNat) ((s.readV x).toNat % 64) ((s.readV y).toNat % 32)
    (s.fb, false)
  rw [State.drawing, hpixel, s.rowsBit_readRun x y n hr hc]

/-- The sprite collides when one of its bits inside the grid meets an on pixel (R105). -/
theorem State.drawing_collides_iff (s : State) (x y n : Nibble) :
    (s.drawing x y n).2 = true ↔
      ∃ r c, r < 32 ∧ c < 64 ∧ s.spriteBit x y n r c = true ∧ s.fb.pixel r c = true := by
  obtain ⟨-, hflag⟩ := blit_spec (s.mem.readRun (s.ea 0) n.toNat) ((s.readV x).toNat % 64) ((s.readV y).toNat % 32)
    (s.fb, false)
  rw [State.drawing, hflag]
  constructor
  · rintro (h | ⟨r, c, hbit, hon⟩)
    · cases h
    · obtain ⟨hr, hc⟩ := rowsBit_inside_grid hbit
      exact ⟨r, c, hr, hc, s.rowsBit_readRun x y n hr hc ▸ hbit, hon⟩
  · rintro ⟨r, c, hr, hc, hbit, hon⟩
    exact Or.inr ⟨r, c, (s.rowsBit_readRun x y n hr hc).trans hbit, hon⟩

/-- Settles O2: the pixels and the flag of the blitter, its bits inside the grid being the sprite's. -/
theorem drawXorsSpriteAndDetectsCollision : Obligations.DrawXorsSpriteAndDetectsCollision := by
  intro x y n s hfit
  refine ⟨_, exec_drw_of_fits x y hfit, fun r c hr hc => s.pixel_drawing x y n hr hc, fun hcol => ?_, fun hcol => ?_, rfl,
    s.draw_frame _ _⟩
  · rw [State.readV_writeV, if_pos rfl, (s.drawing_collides_iff x y n).mpr hcol]
    rfl
  · rw [State.readV_writeV, if_pos rfl, if_neg (mt (s.drawing_collides_iff x y n).mp hcol)]

/-- The sprite at a place depends on the two registers, I and memory alone. -/
theorem State.spriteBit_congr {s t : State} {x y : Nibble} (hx : t.readV x = s.readV x) (hy : t.readV y = s.readV y)
    (hi : t.i = s.i) (hmem : ∀ a, t.mem.read a = s.mem.read a) (n : Nibble) (r c : Nat) :
    t.spriteBit x y n r c = s.spriteBit x y n r c := by
  simp only [State.spriteBit, hx, hy, hi, hmem]

/-- Settles O3: the first draw leaves the sprite and its place alone, so the second inverts the same pixels, those that
were off being on by then. -/
theorem drawTwiceRestoresScreen : Obligations.DrawTwiceRestoresScreen := by
  intro x y n s hx hy hfit
  obtain ⟨t, ht, htpix, -, -, -, hframe⟩ := drawXorsSpriteAndDetectsCollision x y n s hfit
  have hi : t.i = s.i := hframe.i (by decide)
  obtain ⟨u, hu, hupix, hon, hoff, -, -⟩ := drawXorsSpriteAndDetectsCollision x y n t (by rwa [hi])
  have hbit : ∀ r c, t.spriteBit x y n r c = s.spriteBit x y n r c :=
    State.spriteBit_congr (hframe.v x (beq_false_of_ne hx)) (hframe.v y (beq_false_of_ne hy)) hi
      (hframe.mem (by decide)) n
  have hmet : (∃ r c, r < 32 ∧ c < 64 ∧ t.spriteBit x y n r c = true ∧ t.fb.pixel r c = true) ↔
      ∃ r c, r < 32 ∧ c < 64 ∧ s.spriteBit x y n r c = true ∧ s.fb.pixel r c = false := by
    refine exists_congr fun r => exists_congr fun c => and_congr_right fun hr => and_congr_right fun hc => ?_
    rw [hbit, htpix r c hr hc]
    exact and_congr_right fun hb => by simp [hb]
  refine ⟨t, u, ht, hu, fun r c hr hc => ?_, ?_⟩
  · rw [hupix r c hr hc, htpix r c hr hc, hbit, Bool.xor_assoc, Bool.xor_self, Bool.xor_false]
  · rw [← hmet]
    refine ⟨fun h1 => ?_, hon⟩
    by_contra hno
    exact absurd (h1.symm.trans (hoff hno)) (by decide)

end Sys2Proof.Machine
end

section
/-! The MemoryFault of an access run (20_memory.md R53 and R54, 43_index_memory.md R187): the four instructions with such a
run check it before anything else, so one argument serves them all. -/

namespace Sys2Proof.Machine

/-- A run that leaves memory faults on the lowest address out of range, and answers nothing else. -/
theorem boundsChecked_of_leaves (i : Instr) {n : Nat} {s : State} (t : State) (hn : n ≠ 0)
    (h : 4096 < s.i.toNat + n) : boundsChecked i n s t = .next (s.memoryFault i (max s.i.toNat 4096)) := by
  have hfault : firstOutOfRange (s.ea 0) n = some (max s.i.toNat 4096) := firstOutOfRange_some.mpr ⟨hn, h, rfl⟩
  rw [boundsChecked, hfault]

/-- The record of a MemoryFault has room for every address a run from I can leave memory at (R225). -/
theorem State.toNat_memoryFault_addr (s : State) (i : Instr) :
    (s.memoryFault i (max s.i.toNat 4096)).fault.addr.toNat = max s.i.toNat 4096 := by
  have hi := s.i.isLt
  show (BitVec.ofNat 16 (max s.i.toNat 4096)).toNat = _
  rw [BitVec.toNat_ofNat, Nat.mod_eq_of_lt (by omega)]

/-- Settles O24: each of the four instructions answers the state with the MemoryFault taken. -/
theorem runsOutOfMemoryFault : Obligations.RunsOutOfMemoryFault := by
  intro i len s hi hlen hout
  have hexec : exec i s = .next (s.memoryFault i (max s.i.toNat 4096)) := by
    obtain ⟨x, y, n, rfl, rfl⟩ | ⟨x, rfl, rfl⟩ | ⟨x, rfl, rfl⟩ | ⟨x, rfl, rfl⟩ := hi
    · exact (exec_drw x y n s).trans (boundsChecked_of_leaves _ _ hlen hout)
    · exact (exec_ldB x s).trans (boundsChecked_of_leaves _ _ hlen hout)
    · exact (exec_storeRegs x s).trans (boundsChecked_of_leaves _ _ hlen hout)
    · exact (exec_loadRegs x s).trans (boundsChecked_of_leaves _ _ hlen hout)
  exact ⟨_, hexec, rfl, rfl, rfl, rfl, rfl, s.toNat_memoryFault_addr i, rfl, s.raise_frame _ _ _⟩

end Sys2Proof.Machine
end

section
/-! Control flow, one instruction at a time (41_flow.md): where the next fetch is out of range, and what a jump, a skip,
a return and a call do to PC and the stack. -/

namespace Sys2Proof.Machine

/-! ## Jumps -/

/-- The fetch faults exactly from 0xFFF up: its second byte is out of range there (20_memory.md rule R55). -/
theorem State.fetch_faults_iff (s : State) : (∃ a, s.fetch = .error a) ↔ 4095 ≤ s.pc.toNat := by
  constructor
  · rintro ⟨a, ha⟩
    by_contra hlt
    rw [State.fetch_ok (by omega)] at ha
    cases ha
  · intro h
    exact ⟨_, State.fetch_error (by omega)⟩

/-- A jump changes PC alone. -/
theorem State.jump_frame (s : State) (target : Word) : SameBut noReg [.pc] s { s with pc := target } := by
  constructor
  case pc => intro h; exact absurd (List.mem_singleton.mpr rfl) h
  all_goals intros; rfl

/-- Settles O5: PC gets the address, and of the 12-bit addresses only 0xFFF is at or beyond 0xFFF. -/
theorem jpSetsProgramCounter : Obligations.JpSetsProgramCounter := by
  intro nnn s
  refine ⟨decode_encode (.jp nnn), _, rfl, toNat_addrOperand nnn, ?_, s.jump_frame _⟩
  rw [State.fetch_faults_iff, toNat_addrOperand, ← BitVec.toNat_inj]
  show 4095 ≤ nnn.toNat ↔ nnn.toNat = 4095
  omega

/-- The sum of `JP V0, addr` needs no masking: it fits in 16 bits (R128). -/
theorem toNat_jpV0_target (nnn : Addr) (b : Byte) :
    (addrOperand nnn + b.setWidth 16).toNat = nnn.toNat + b.toNat := by
  rw [BitVec.toNat_add, toNat_addrOperand, BitVec.toNat_setWidth]
  omega

/-- Settles O9: PC gets the exact sum, and the fetch faults where that is 0xFFF or more. -/
theorem jpV0AddsRegisterZero : Obligations.JpV0AddsRegisterZero := by
  intro nnn s
  refine ⟨decode_encode (.jpV0 nnn), _, rfl, toNat_jpV0_target nnn _, ?_, s.jump_frame _⟩
  rw [State.fetch_faults_iff, toNat_jpV0_target]

/-! ## Skips -/

/-- A skip on a condition `p` goes to ipc + 4 where it holds (R131). -/
theorem State.skips_of_iff (s : State) {c : Bool} {p : Prop} [Decidable p] (h : c = true ↔ p) :
    ∃ t, (.next (s.advance.skipIf c) : Result) = .next t ∧ t.pc = (if p then s.pc + 4 else s.pc + 2) ∧
      SameBut noReg [.pc] s t := by
  refine ⟨_, rfl, ?_, s.skip_frame c⟩
  rw [State.advance_skipIf_pc]
  exact if_congr h rfl rfl

/-- A skip on the failure of a condition `p` goes to ipc + 2 where it holds (R131). -/
theorem State.skips_of_iff_not (s : State) {c : Bool} {p : Prop} [Decidable p] (h : c = true ↔ ¬ p) :
    ∃ t, (.next (s.advance.skipIf c) : Result) = .next t ∧ t.pc = (if p then s.pc + 2 else s.pc + 4) ∧
      SameBut noReg [.pc] s t := by
  rw [← ite_not]
  exact s.skips_of_iff h

/-- Settles O10: a skip on equality with the byte, and one on inequality. -/
theorem skipsOnImmediate : Obligations.SkipsOnImmediate := by
  intro x nn s
  exact ⟨decode_encode (.seByte x nn), decode_encode (.sneByte x nn), s.skips_of_iff beq_iff_eq,
    s.skips_of_iff_not bne_iff_ne⟩

/-- Settles O11: a skip on equality of the two registers, and one on inequality. -/
theorem skipsOnRegisters : Obligations.SkipsOnRegisters := by
  intro x y u s
  exact ⟨decode_encode (.seReg x y u), decode_encode (.sneReg x y u), s.skips_of_iff beq_iff_eq,
    s.skips_of_iff_not bne_iff_ne⟩

/-- The key a key instruction tests is entry V[x] mod 16 of the key state (R129). -/
theorem State.keys_lowNibble (s : State) (x : Nibble) :
    s.keys[(s.readV x).toNat % 16]? = some (s.keyDown (s.lowNibble x)) := by
  rw [← s.toNat_lowNibble x]
  exact Vector.getElem?_eq_getElem _

/-- Settles O12: a skip on the tested key being down, and one on its being up. -/
theorem skipsOnKeys : Obligations.SkipsOnKeys := by
  intro x s
  refine ⟨decode_encode (.skp x), decode_encode (.sknp x), s.skips_of_iff ?_, s.skips_of_iff ?_⟩
  · rw [s.keys_lowNibble, Option.some_inj]
  · rw [s.keys_lowNibble, Option.some_inj, Bool.not_eq_true']

/-! ## Return and call -/

/-- Settles O4: the stack is empty, or RET goes to its top entry. -/
theorem retPopsOrUnderflows : Obligations.RetPopsOrUnderflows := by
  intro u s
  refine ⟨decode_encode (.ret u), fun hne => ?_, fun hempty => ?_⟩
  · obtain ⟨j, hsp⟩ := s.sp_empty_or_top.resolve_left hne
    have htop : s.stack[s.sp.val - 1]? = some s.stack[j] := by
      rw [hsp, Nat.add_sub_cancel]
      exact Vector.getElem?_eq_getElem j.isLt
    exact ⟨_, exec_ret_of_top u hsp, htop, hsp.symm, fun h => h.stack_le j, s.return_frame _ _⟩
  · exact ⟨_, exec_ret_of_empty u hempty, rfl, rfl, s.raise_frame _ _ _⟩

/-- Settles O8: the RET goes to the entry the CALL pushed, one below the SP the CALL left. -/
theorem callThenReturnRoundTrips : Obligations.CallThenReturnRoundTrips := by
  intro nnn u s hlt
  obtain ⟨j, hsp⟩ := s.sp_full_or_free.resolve_left (Nat.ne_of_lt hlt)
  refine ⟨_, exec_call_of_free nnn hsp, fun m hstack hm => ?_⟩
  have htop : m.sp.val = j.val + 1 := congrArg Fin.val hm
  refine ⟨_, exec_ret_of_top u htop, ?_, Fin.ext hsp.symm⟩
  show m.stack[j] = s.pc + 2
  rw [hstack]
  exact Vector.getElem_set_self j.isLt

end Sys2Proof.Machine
end

section
/-! Control flow along a run (41_flow.md rules R120, R122 and R123): the instruction a step runs, and the runs of a JP and
of a CALL to its own address. -/

namespace Sys2Proof.Machine

/-- `s` as the instruction of an edge without inputs finds it: a free random input, and the diagnostic pulse ended. -/
def State.withQuietEdge (s : State) : State := { s with rand := .free, diag := { s.diag with pulse := false } }

/-- An edge without inputs leaves the empty queue as it is. -/
theorem State.beginEdge_of_no_inputs {s : State} (h : s.inputs = []) :
    { s.beginEdge with rand := .free } = s.withQuietEdge := by
  have hrest : s.nextEdge.2 = s.inputs := by rw [State.nextEdge, h]
  rw [State.beginEdge, hrest, State.withQuietEdge]

/-- With no input pending, a step in mode Running runs the instruction the word at PC decodes to. -/
theorem step_of_fetch_instr {s : State} {w : Word} {i : Instr} (hin : s.inputs = []) (hm : s.mode = .running)
    (hf : s.fetch = .ok w) (hd : decode w = .instr i) : step s = exec i s.withQuietEdge := by
  rw [step_of_fetch hin hm hf, hd, State.beginEdge_of_no_inputs hin]
  rfl

/-- Settles O35: the fetch joins the two bytes at PC, and the cycle executes what they decode to. -/
theorem stepRunsDecodedInstruction : Obligations.StepRunsDecodedInstruction := by
  intro s i hm hpc hd
  have hf := State.fetch_ok hpc
  refine ⟨fun rnd => ?_, fun hin => step_of_fetch_instr hin hm hf hd⟩
  exact (stepEvent_of_fetch rnd hm hf).trans (congrArg (execDecoded · { s with rand := rnd }) hd)

/-- `s` is in mode Running with no input pending, and PC is `nnn`, where the instruction `i` is. -/
structure State.RunsAt (i : Instr) (nnn : Addr) (s : State) : Prop where
  mode : s.mode = .running
  inputs : s.inputs = []
  pc : s.pc = addrOperand nnn
  fetch : s.fetch = .ok (encode i)

section
variable {i : Instr} {nnn : Addr} {s : State}

theorem State.runsAt_of_toNat_pc (hm : s.mode = .running) (hin : s.inputs = []) (hpc : s.pc.toNat = nnn.toNat)
    (hf : s.fetch = .ok (encode i)) : s.RunsAt i nnn :=
  ⟨hm, hin, BitVec.eq_of_toNat_eq (hpc.trans (toNat_addrOperand nnn).symm), hf⟩

theorem State.RunsAt.step_eq (h : s.RunsAt i nnn) : step s = exec i s.withQuietEdge :=
  step_of_fetch_instr h.inputs h.mode h.fetch (decode_encode i)

/-- The machine comes back to the instruction in any state with its address in PC: the stack has no part in that. -/
theorem State.RunsAt.jumpBack (h : s.RunsAt i nnn) (stack : Vector Word 16) (sp : Fin 17) :
    State.RunsAt i nnn { s.withQuietEdge with stack := stack, sp := sp, pc := addrOperand nnn } := by
  refine ⟨h.mode, h.inputs, rfl, ?_⟩
  rw [← h.pc]
  exact h.fetch

/-- A JP to its own address comes back to itself (R122). -/
theorem State.RunsAt.step_jp (h : s.RunsAt (.jp nnn) nnn) : AnswersNext (State.RunsAt (.jp nnn) nnn) (step s) := by
  rw [h.step_eq]
  exact .next (h.jumpBack s.stack s.sp)

/-- A CALL to its own address comes back to itself with one more entry on the stack (R123). -/
theorem State.RunsAt.step_call (h : s.RunsAt (.call nnn) nnn) (hsp : s.sp.val < 16) :
    AnswersNext (fun t => t.RunsAt (.call nnn) nnn ∧ t.sp.val = s.sp.val + 1) (step s) := by
  obtain ⟨j, hj⟩ := s.sp_full_or_free.resolve_left (Nat.ne_of_lt hsp)
  rw [h.step_eq, exec_call_of_free (s := s.withQuietEdge) nnn hj]
  exact .next ⟨h.jumpBack _ _, congrArg (· + 1) hj.symm⟩

end

/-- A run is safe when some property of the state rules out Halted and each step keeps it. -/
theorem safeRun_of_kept {P : State → Prop} (hmode : ∀ s, P s → s.mode ≠ .halted)
    (hstep : ∀ s, P s → AnswersNext P (step s)) (k : Nat) {s : State} (h : P s) : SafeRun k s := by
  induction k generalizing s with
  | zero => exact hmode s h
  | succ k ih =>
    obtain ⟨t, ht, hP⟩ := (hstep s h).exists_next
    exact ⟨hmode s h, t, ht, ih hP⟩

/-- Settles O6: a JP at its own address keeps the machine in Running at that address. -/
theorem jumpToSelfNeverHalts : Obligations.JumpToSelfNeverHalts := by
  intro k nnn s hm hin hpc hf
  have hrun : ∀ s, State.RunsAt (.jp nnn) nnn s → s.mode ≠ .halted := fun s h => by simp [h.mode]
  exact safeRun_of_kept hrun (fun s h => h.step_jp) k (State.runsAt_of_toNat_pc hm hin hpc hf)

/-- A run of one step is that step. -/
theorem run_one (s : State) : Sys2Proof.core.run 1 s = step s := by
  have hstep : Sys2Proof.core.step s = step s := rfl
  simp only [Host.Core.run, hstep]
  cases step s <;> rfl

/-- A run that comes to a state took a first step and came there from that step's state. -/
theorem exists_step_next_of_run {k : Nat} {s t : State} (h : Sys2Proof.core.run (k + 1) s = .next t) :
    ∃ u, step s = .next u ∧ Sys2Proof.core.run k u = .next t := by
  have hstep : Sys2Proof.core.step s = step s := rfl
  simp only [Host.Core.run, hstep] at h
  cases hs : step s with
  | next u => exact ⟨u, rfl, by rwa [hs] at h⟩
  | fault r => rw [hs] at h; cases h
  | refused r => rw [hs] at h; cases h

/-- A run goes on from the state it came to with one step more. -/
theorem run_succ_of_run {k : Nat} {s t : State} (h : Sys2Proof.core.run k s = .next t) :
    Sys2Proof.core.run (k + 1) s = step t := by
  induction k generalizing s with
  | zero =>
    cases h
    exact run_one t
  | succ k ih =>
    obtain ⟨u, hu, hrun⟩ := exists_step_next_of_run h
    rw [run_of_step_next hu]
    exact ih hrun

/-- A CALL to its own address, run `k` times, pushes `k` entries while the stack has room. -/
theorem State.RunsAt.run_call {nnn : Addr} {s : State} (h : s.RunsAt (.call nnn) nnn) {k : Nat}
    (hk : s.sp.val + k ≤ 16) :
    ∃ t, Sys2Proof.core.run k s = .next t ∧ t.RunsAt (.call nnn) nnn ∧ t.sp.val = s.sp.val + k := by
  induction k with
  | zero => exact ⟨s, rfl, h, rfl⟩
  | succ k ih =>
    obtain ⟨t, ht, hcall, hsp⟩ := ih (by omega)
    obtain ⟨u, hu, hcall', hsp'⟩ := (hcall.step_call (by omega)).exists_next
    exact ⟨u, (run_succ_of_run ht).trans hu, hcall', by omega⟩

/-- Settles O7: a CALL pushes or overflows by whether the stack has room; to its own address, it pushes 16 times. -/
theorem callPushesOrOverflows : Obligations.CallPushesOrOverflows := by
  intro nnn s
  refine ⟨decode_encode (.call nnn), fun hlt => ?_, fun hfull => ?_, fun hm hin hpc hf hempty => ?_⟩
  · obtain ⟨j, hsp⟩ := s.sp_full_or_free.resolve_left (Nat.ne_of_lt hlt)
    refine ⟨_, exec_call_of_free nnn hsp, ?_, fun k hk => ?_, congrArg (· + 1) hsp.symm, toNat_addrOperand nnn,
      s.call_frame _ _ _⟩
    · rw [hsp]
      exact Vector.getElem?_set_self j.isLt
    · exact Vector.getElem?_set_ne j.isLt (hsp ▸ hk.symm)
  · exact ⟨_, exec_call_of_full nnn hfull, rfl, rfl, s.raise_frame _ _ _⟩
  · have hself := State.runsAt_of_toNat_pc hm hin hpc hf
    obtain ⟨t, ht, hcall, hsp⟩ := hself.run_call (k := 16) (by omega)
    have htfull : t.sp.val = 16 := by omega
    have hover : step t = .next (t.withQuietEdge.raise .stackOverflow (some (encode (.call nnn))) none) :=
      hcall.step_eq.trans (exec_call_of_full (s := t.withQuietEdge) nnn htfull)
    exact ⟨t, _, ht, hcall.mode, htfull, hcall.pc.trans hself.pc.symm, (run_succ_of_run ht).trans hover, rfl, rfl,
      htfull⟩

end Sys2Proof.Machine
end

section
/-! The results and flags of 42_alu.md, as arithmetic on the operands' unsigned values (rule R162). -/

namespace Sys2Proof.Machine

theorem toNat_addResult (a b : Byte) : (addResult a b).toNat = (a.toNat + b.toNat) % 256 := by
  rw [addResult, BitVec.toNat_ofNat, Nat.mod_mod]

theorem addCarry_iff (a b : Byte) : addCarry a b = true ↔ a.toNat + b.toNat > 255 := decide_eq_true_iff

theorem toNat_subResult (a b : Byte) : (subResult a b).toNat = (a.toNat + 256 - b.toNat) % 256 := by
  rw [subResult, BitVec.toNat_ofInt]
  omega

theorem subNotBorrow_iff (a b : Byte) : subNotBorrow a b = true ↔ b.toNat ≤ a.toNat := decide_eq_true_iff

theorem toNat_shrResult (a : Byte) : (shrResult a).toNat = a.toNat / 2 := by
  rw [shrResult, BitVec.toNat_ofNat]
  omega

theorem shrOut_iff (a : Byte) : shrOut a = true ↔ a.toNat % 2 = 1 := by
  rw [shrOut, BitVec.getLsbD, Nat.testBit_zero, decide_eq_true_iff]

theorem toNat_shlResult (a : Byte) : (shlResult a).toNat = 2 * a.toNat % 256 := by
  rw [shlResult, BitVec.toNat_ofNat]
  omega

theorem shlOut_iff (a : Byte) : shlOut a = true ↔ 128 ≤ a.toNat := by
  rw [shlOut, BitVec.getLsbD, Nat.testBit_eq_decide_div_mod_eq, decide_eq_true_iff]
  omega

end Sys2Proof.Machine
end

section
/-! The register and arithmetic family, one instruction at a time (42_alu.md): the instructions that write one register,
those that write VF after it (R163), and RND with its two sources of a byte (R161). -/

namespace Sys2Proof.Machine

/-! ## One register -/

theorem State.readV_writeV_same (s : State) (x : Nibble) (b : Byte) : (s.writeV x b).readV x = b := by
  rw [State.readV_writeV, if_pos rfl]

/-- Settles O13: each writes its value to V[x], and a sum is reduced modulo 256. -/
theorem loadsAndImmediateAdd : Obligations.LoadsAndImmediateAdd := by
  intro x y nn s
  refine ⟨decode_encode (.ldByte x nn), decode_encode (.addByte x nn), decode_encode (.ldReg x y),
    ⟨_, rfl, State.readV_writeV_same _ _ _, rfl, s.writeV_frame x _⟩, ⟨_, rfl, ?_, rfl, s.writeV_frame x _⟩,
    ⟨_, rfl, State.readV_writeV_same _ _ _, rfl, s.writeV_frame x _⟩⟩
  rw [State.readV_writeV_same, toNat_addResult]

/-- Settles O14: V[x] gets the bitwise combination of the two registers. -/
theorem bitwiseOperationsLeaveFlag : Obligations.BitwiseOperationsLeaveFlag := by
  intro x y s
  refine ⟨⟨_, rfl, fun k _ => ?_, rfl, s.writeV_frame x _⟩, ⟨_, rfl, fun k _ => ?_, rfl, s.writeV_frame x _⟩,
    ⟨_, rfl, fun k _ => ?_, rfl, s.writeV_frame x _⟩⟩
  · rw [State.readV_writeV_same, BitVec.getLsbD_or]
  · rw [State.readV_writeV_same, BitVec.getLsbD_and]
  · rw [State.readV_writeV_same, BitVec.getLsbD_xor]

/-! ## A register and then the flag -/

/-- A write of V[x] and then of VF: VF is 1 exactly on the flag's condition `p`, whatever x is, and any other V[x] holds
the result, of value `n` (R163). -/
theorem State.writesFlagLast (s : State) (x : Nibble) {result : Byte} {flag : Bool} {n : Nat} {p : Prop} [Decidable p]
    (hflag : flag = true ↔ p) (hresult : result.toNat = n) :
    ∃ t, (.next (s.advance.writeWithFlag x result flag) : Result) = .next t ∧
      t.readV 0xF#4 = (if p then 1 else 0) ∧ (x ≠ 0xF#4 → (t.readV x).toNat = n) ∧
      t.pc = s.pc + 2 ∧ SameBut (regAndFlag x) [.pc] s t := by
  refine ⟨_, rfl, ?_, fun hx => ?_, rfl, s.writeWithFlag_frame x _ _⟩
  · rw [State.readV_writeWithFlag, if_pos rfl]
    exact if_congr hflag rfl rfl
  · rw [State.readV_writeWithFlag, if_neg hx, if_pos rfl, hresult]

/-- Settles O15: the flag is the carry of the exact sum. -/
theorem addRegistersWritesCarryLast : Obligations.AddRegistersWritesCarryLast := by
  intro x y s
  exact s.writesFlagLast x (addCarry_iff _ _) (toNat_addResult _ _)

/-- Settles O16: the flag is the comparison of the operands, in each direction. -/
theorem subtractsWriteNotBorrowLast : Obligations.SubtractsWriteNotBorrowLast := by
  intro x y s
  exact ⟨s.writesFlagLast x (subNotBorrow_iff _ _) (toNat_subResult _ _),
    s.writesFlagLast x (subNotBorrow_iff _ _) (toNat_subResult _ _)⟩

/-- Settles O17: the flag is the lowest bit, or the highest. -/
theorem shiftsWriteBitShiftedOut : Obligations.ShiftsWriteBitShiftedOut := by
  intro x u s
  exact ⟨s.writesFlagLast x (shrOut_iff _) (toNat_shrResult _), s.writesFlagLast x (shlOut_iff _) (toNat_shlResult _)⟩

/-! ## The random byte -/

theorem State.randByte_of_driven {s : State} {b : Byte} (h : s.rand = .driven b) : s.randByte = b := by
  rw [State.randByte, h]

theorem State.randByte_of_free {s : State} (h : s.rand = .free) : s.randByte = Config.freeRandByte s.draws := by
  rw [State.randByte, h]

theorem State.afterDraw_of_driven {s : State} {b : Byte} (h : s.rand = .driven b) : s.afterDraw = s := by
  rw [State.afterDraw, h]

theorem State.afterDraw_of_free {s : State} (h : s.rand = .free) : s.afterDraw = { s with draws := s.draws + 1 } := by
  rw [State.afterDraw, h]

/-- RND writes the masked random byte to V[x], once the draw is counted (R161). -/
theorem exec_rnd (x : Nibble) (nn : Byte) (s : State) :
    exec (.rnd x nn) s = .next (s.advance.afterDraw.writeV x (s.randByte &&& nn)) := rfl

/-- Settles O18: the byte is the driven one or the free value, and the mask clears every bit that is not in nn. -/
theorem randomByteIsMasked : Obligations.RandomByteIsMasked := by
  intro x nn s
  refine ⟨_, exec_rnd x nn s, fun b hb => ⟨?_, ?_⟩, fun hfree => ⟨?_, ?_⟩, fun k hk => ?_, ?_, s.rnd_frame x _⟩
  · rw [State.readV_writeV_same, State.randByte_of_driven hb]
  · rw [State.writeV_draws, State.afterDraw_of_driven (s := s.advance) hb]
    rfl
  · rw [State.readV_writeV_same, State.randByte_of_free hfree]
  · rw [State.writeV_draws, State.afterDraw_of_free (s := s.advance) hfree]
    rfl
  · rw [State.readV_writeV_same, BitVec.getLsbD_and, Bool.and_eq_true] at hk
    exact hk.right
  · rw [State.writeV_pc, State.afterDraw_pc, State.advance_pc]

end Sys2Proof.Machine
end

section
/-! The random input reaches no instruction but RND (42_alu.md R161, 60_exceptions.md R241): running any other instruction
commutes with putting another random input and draw counter into the state. -/

namespace Sys2Proof.Machine

/-- `s` with another random input and another count of free draws. -/
def State.withRandom (rand : RandInput) (draws : Nat) (s : State) : State := { s with rand := rand, draws := draws }

theorem State.withRandom_frame (s : State) (rand : RandInput) (draws : Nat) :
    SameBut noReg [.rand, .draws] s (s.withRandom rand draws) := by
  constructor
  case rand | draws => intro h; exact absurd (by decide) h
  all_goals intros; rfl

/-- A result with its next state changed by `f`. -/
def mapNext (f : State → State) : Result → Result
  | .next t => .next (f t)
  | .fault r => .fault r
  | .refused r => .refused r

section
variable (rand : RandInput) (draws : Nat) (s : State)

theorem State.writeRegs_withRandom (bs : List Byte) (k : Nat) :
    (s.withRandom rand draws).writeRegs k bs = (s.writeRegs k bs).withRandom rand draws := by
  induction bs generalizing s k with
  | nil => rfl
  | cons b bs ih => exact ih (s.writeV _ b) (k + 1)

theorem skip_withRandom (c : Bool) :
    (.next ((s.withRandom rand draws).advance.skipIf c) : Result) =
      mapNext (State.withRandom rand draws) (.next (s.advance.skipIf c)) := by
  cases c <;> rfl

theorem boundsChecked_withRandom (i : Instr) (n : Nat) {t u : State} (hu : u = t.withRandom rand draws) :
    boundsChecked i n (s.withRandom rand draws) u = mapNext (State.withRandom rand draws) (boundsChecked i n s t) := by
  have hea : (s.withRandom rand draws).ea 0 = s.ea 0 := rfl
  unfold boundsChecked
  rw [hea, hu]
  cases firstOutOfRange (s.ea 0) n <;> rfl

/-- An instruction other than RND neither reads nor writes the random input or the draw counter. -/
theorem exec_withRandom (i : Instr) (hi : ∀ x nn, i ≠ .rnd x nn) :
    exec i (s.withRandom rand draws) = mapNext (State.withRandom rand draws) (exec i s) := by
  cases i with
  | rnd x nn => exact absurd rfl (hi x nn)
  | ldByte x nn | addByte x nn => rfl
  | ldReg x y | orReg x y | andReg x y | xorReg x y => rfl
  | addReg x y | sub x y | subn x y | shr x y | shl x y => rfl
  | cls u | jp nnn | jpV0 nnn | ldI nnn => rfl
  | ldVxDT x | ldVxK x | ldDTVx x | ldSTVx x | addI x | ldF x => rfl
  | seByte x nn | sneByte x nn => exact skip_withRandom ..
  | seReg x y u | sneReg x y u => exact skip_withRandom ..
  | skp x | sknp x => exact skip_withRandom ..
  | ret u =>
    obtain hsp | ⟨j, hsp⟩ := s.sp_empty_or_top
    · rw [exec_ret_of_empty u hsp, exec_ret_of_empty (s := s.withRandom rand draws) u hsp]
      rfl
    · rw [exec_ret_of_top u hsp, exec_ret_of_top (s := s.withRandom rand draws) u hsp]
      rfl
  | call nnn =>
    obtain hsp | ⟨j, hsp⟩ := s.sp_full_or_free
    · rw [exec_call_of_full nnn hsp, exec_call_of_full (s := s.withRandom rand draws) nnn hsp]
      rfl
    · rw [exec_call_of_free nnn hsp, exec_call_of_free (s := s.withRandom rand draws) nnn hsp]
      rfl
  | drw x y n =>
    rw [exec_drw, exec_drw]
    exact boundsChecked_withRandom _ _ _ _ _ rfl
  | ldB x =>
    rw [exec_ldB, exec_ldB]
    exact boundsChecked_withRandom _ _ _ _ _ rfl
  | storeRegs x =>
    rw [exec_storeRegs, exec_storeRegs]
    exact boundsChecked_withRandom _ _ _ _ _ rfl
  | loadRegs x =>
    rw [exec_loadRegs, exec_loadRegs]
    exact boundsChecked_withRandom _ _ _ _ _ (s.advance.writeRegs_withRandom ..)

end

/-- Settles O42: the second answer is the first with the other random input and counter put in. -/
theorem randomInputReachesOnlyRnd : Obligations.RandomInputReachesOnlyRnd := by
  intro i s rand draws hi
  obtain ⟨t, ht, -⟩ := (exec_frame i s).exists_next
  have ht' := exec_withRandom rand draws s i hi
  rw [ht] at ht'
  exact ⟨t, _, ht, ht', t.withRandom_frame rand draws⟩

end Sys2Proof.Machine
end

section
/-! The index register and memory family, one instruction at a time (43_index_memory.md): what I gets (R180 to R182), and,
for an access run that stays in memory, what is stored at I or loaded from there (R184 to R186). -/

namespace Sys2Proof.Machine

/-! ## The index register -/

/-- Another I beside the advance changes I and PC alone. -/
theorem State.index_frame (s : State) (i : Word) : SameBut noReg [.pc, .i] s { s.advance with i := i } := by
  constructor
  case pc | i => intro h; exact absurd (by decide) h
  all_goals intros; rfl

/-- A sum reduced modulo MEM_SIZE fits in I (R181). -/
theorem toNat_indexSum (n : Nat) : (BitVec.ofNat 16 (n % Config.memSize)).toNat = n % 4096 := by
  rw [BitVec.toNat_ofNat, Config.memSize]
  omega

/-- Glyph d begins at 5 times d, the font being at address 0 (R182). -/
theorem toNat_glyphAddr (d : Nibble) : (glyphAddr d).toNat = 5 * d.toNat := by
  rw [glyphAddr, BitVec.toNat_ofNat, Config.fontBase, Config.glyphBytes]
  omega

/-- Settles O19: I gets the address, or the sum modulo MEM_SIZE. -/
theorem setAndAddIndex : Obligations.SetAndAddIndex := by
  intro nnn x s
  exact ⟨decode_encode (.ldI nnn), decode_encode (.addI x), ⟨_, rfl, toNat_addrOperand nnn, rfl, s.index_frame _⟩,
    ⟨_, rfl, toNat_indexSum _, rfl, s.index_frame _⟩⟩

/-- Settles O20: I gets the glyph's address, and the five bytes there in reset memory are read from the font table. -/
theorem fontGlyphAddress : Obligations.FontGlyphAddress := by
  intro x s
  have hi : (glyphAddr (s.lowNibble x)).toNat = 5 * ((s.readV x).toNat % 16) := by
    rw [toNat_glyphAddr, State.toNat_lowNibble]
  have hglyph : s.mem = State.reset.mem → ∀ {d : Nat}, (s.readV x).toNat % 16 = d →
      s.mem.readRun (glyphAddr (s.lowNibble x)).toNat 5 = State.reset.mem.readRun (5 * d) 5 := by
    rintro hmem d rfl
    rw [hmem, hi]
  exact ⟨_, rfl, hi, rfl, s.index_frame _, fun hmem hd => (hglyph hmem hd).trans (by decide),
    fun hmem hd => (hglyph hmem hd).trans (by decide)⟩

/-! ## Stores at I -/

/-- Byte k of a run stored at I is read at I + k. -/
theorem State.read_ea_writeRun {s : State} {bs : List Byte} (hwf : s.mem.wf = true) (hfit : s.ea 0 + bs.length ≤ 4096)
    {k : Nat} (hk : k < bs.length) : (s.mem.writeRun (s.ea 0) bs).read (s.ea k) = bs[k] :=
  Memory.read_writeRun_inside bs hwf hfit hk

/-- The digits of a byte are its decimal digits, hundreds first: each is below 10 and fits in a byte (R184). -/
theorem toNat_bcdDigits (b : Byte) :
    (bcdDigits b).map BitVec.toNat = [b.toNat / 100, b.toNat / 10 % 10, b.toNat % 10] := by
  have hb := b.isLt
  simp only [bcdDigits, List.map_cons, List.map_nil, BitVec.toNat_ofNat, List.cons.injEq, and_true]
  omega

/-- Settles O21: the run stored at I is the three digits. -/
theorem bcdStoreWritesThreeDigits : Obligations.BcdStoreWritesThreeDigits := by
  intro x s hwf hfit
  have hdigit : ∀ k (hk : k < 3), ((s.mem.writeRun (s.ea 0) (bcdDigits (s.readV x))).read (s.ea k)).toNat =
      [(s.readV x).toNat / 100, (s.readV x).toNat / 10 % 10, (s.readV x).toNat % 10][k] := by
    intro k hk
    rw [State.read_ea_writeRun (bs := bcdDigits (s.readV x)) hwf hfit hk]
    simp only [← toNat_bcdDigits]
    exact (List.getElem_map BitVec.toNat).symm
  exact ⟨_, (exec_ldB x s).trans (boundsChecked_of_fits _ hfit), hdigit 0 (by decide), hdigit 1 (by decide),
    hdigit 2 (by decide), fun a ha => Memory.read_writeRun_outside _ _ ha, rfl, s.store_frame _⟩

/-- The byte of a register range at a register's own number is that register's. -/
theorem State.getElem_regRange_toNat (s : State) {x r : Nibble} (h : r.toNat < (s.regRange x).length) :
    (s.regRange x)[r.toNat] = s.readV r := by
  rw [State.getElem_regRange, BitVec.ofNat_toNat, BitVec.setWidth_eq]

/-- Settles O22: the run stored at I is the register range. -/
theorem blockStoreWritesRegisters : Obligations.BlockStoreWritesRegisters := by
  intro x s hwf hfit
  have hrun : s.ea 0 + (s.regRange x).length ≤ 4096 := by rwa [State.length_regRange]
  refine ⟨_, (exec_storeRegs x s).trans (boundsChecked_of_fits _ hfit), fun r hr => ?_, fun a ha => ?_, rfl,
    s.store_frame _⟩
  · have hlt : r.toNat < (s.regRange x).length := by rw [State.length_regRange]; omega
    exact (State.read_ea_writeRun hwf hrun hlt).trans (s.getElem_regRange_toNat hlt)
  · exact Memory.read_writeRun_outside _ _ (by rwa [State.length_regRange])

/-! ## Loads from I -/

/-- Settles O23: each register of the range gets the byte of its place in the run read at I. -/
theorem blockLoadReadsRegisters : Obligations.BlockLoadReadsRegisters := by
  intro x s hfit
  have hlen := s.mem.length_readRun (s.ea 0) (x.toNat + 1)
  refine ⟨_, (exec_loadRegs x s).trans (boundsChecked_of_fits _ hfit), fun r hr => ?_, ?_, s.loadRegs_frame x _ hlen⟩
  · rw [State.readV_writeRegs _ _ _ (by omega), dif_pos (by omega), Memory.getElem_readRun]
    rfl
  · rw [State.writeRegs_pc, State.advance_pc]

/-- Settles O25: the load reads at I + k the byte the store put there, which is V[k]. -/
theorem blockLoadRestoresBlockStore : Obligations.BlockLoadRestoresBlockStore := by
  intro x s hwf hfit
  obtain ⟨t, ht, hstored, -⟩ := blockStoreWritesRegisters x s hwf hfit
  refine ⟨t, ht, fun m hmem hi => ?_⟩
  obtain ⟨u, hu, hloaded, -⟩ := blockLoadReadsRegisters x m (by rwa [hi])
  refine ⟨u, hu, fun r hr => ?_⟩
  have hea : m.ea r.toNat = s.ea r.toNat := by rw [State.ea, State.ea, hi]
  rw [hloaded r hr, hmem, hea, hstored r hr]

end Sys2Proof.Machine
end

section
/-! The timer and key-wait family and the key events (44_timer_input.md, 60_exceptions.md R244): a transfer to or from a
timer, the wait that `LD Vx, K` enters, and the key-down event that ends it. -/

namespace Sys2Proof.Machine

/-! ## Key events -/

theorem State.keyDown_setKey_same (s : State) (k : Nibble) (down : Bool) : (s.setKey k down).keyDown k = down := by
  rw [State.keyDown_setKey, if_pos rfl]

theorem State.keyDown_setKey_of_ne (s : State) {k j : Nibble} (down : Bool) (h : j ≠ k) :
    (s.setKey k down).keyDown j = s.keyDown j := by
  rw [State.keyDown_setKey, if_neg h]

/-- Setting a key changes the keys alone. -/
theorem State.setKey_frame (s : State) (k : Nibble) (down : Bool) : SameBut noReg [.keys] s (s.setKey k down) := by
  constructor
  case keys => intro h; exact absurd (by decide) h
  all_goals intros; rfl

/-- The state after key k ends a key wait (R202). -/
def State.resume (s : State) (k : Nibble) : State :=
  { (s.setKey k true).writeV s.waitreg (k.setWidth 8) with mode := .running }

/-- A key-down event ends a wait; in the other modes it sets the key and no more (R202, R244). -/
theorem State.keyDownEvent_cases (s : State) (k : Nibble) :
    (s.mode = .waitingForKey ∧ s.keyDownEvent k = s.resume k) ∨
    (s.mode ≠ .waitingForKey ∧ s.keyDownEvent k = s.setKey k true) := by
  unfold State.keyDownEvent
  cases hm : s.mode with
  | waitingForKey => exact Or.inl ⟨rfl, rfl⟩
  | running => exact Or.inr ⟨nofun, rfl⟩
  | halted => exact Or.inr ⟨nofun, rfl⟩

/-- The key index is extended by zeros, so the register holds its value. -/
theorem State.toNat_readV_resume (s : State) (k : Nibble) : ((s.resume k).readV s.waitreg).toNat = k.toNat := by
  have hread : (s.resume k).readV s.waitreg = k.setWidth 8 := State.readV_writeV_same (s.setKey k true) s.waitreg _
  rw [hread, BitVec.toNat_setWidth_of_le (by decide)]

/-- A resume changes the waiting register, the keys and the mode alone. -/
theorem State.resume_frame (s : State) (k : Nibble) : SameBut (onlyReg s.waitreg) [.keys, .mode] s (s.resume k) := by
  constructor
  case v =>
    intro r hr
    have hne : r ≠ s.waitreg := by simpa [onlyReg] using hr
    exact (State.readV_writeV (s.setKey k true) s.waitreg r _).trans (if_neg hne)
  case keys | mode => intro h; exact absurd (by decide) h
  all_goals intros; rfl

/-- Settles O29: a key-down event is a resume in a key wait and sets the key otherwise; a key-up event clears it. -/
theorem keyEventsAndResume : Obligations.KeyEventsAndResume := by
  intro k s
  refine ⟨⟨s.keyDownEvent k, rfl, ?_⟩,
    ⟨_, rfl, s.keyDown_setKey_same k false, fun j hj => s.keyDown_setKey_of_ne false hj, s.setKey_frame k false⟩⟩
  obtain ⟨hm, he⟩ | ⟨hm, he⟩ := s.keyDownEvent_cases k
  · rw [he]
    exact ⟨s.keyDown_setKey_same k true, fun j hj => s.keyDown_setKey_of_ne true hj,
      fun _ => ⟨rfl, s.toNat_readV_resume k, s.resume_frame k⟩, fun hne => absurd hm hne⟩
  · rw [he]
    exact ⟨s.keyDown_setKey_same k true, fun j hj => s.keyDown_setKey_of_ne true hj, fun hw => absurd hw hm,
      fun _ => s.setKey_frame k true⟩

/-! ## Timer transfers -/

/-- Another DT beside the advance changes DT and PC alone. -/
theorem State.delayTimer_frame (s : State) (b : Byte) : SameBut noReg [.pc, .dt] s { s.advance with dt := b } := by
  constructor
  case pc | dt => intro h; exact absurd (by decide) h
  all_goals intros; rfl

/-- Another ST beside the advance changes ST and PC alone. -/
theorem State.soundTimer_frame (s : State) (b : Byte) : SameBut noReg [.pc, .st] s { s.advance with st := b } := by
  constructor
  case pc | st => intro h; exact absurd (by decide) h
  all_goals intros; rfl

theorem State.soundOn_iff (s : State) : s.soundOn = true ↔ s.st ≠ 0 := bne_iff_ne

/-- Settles O27: each transfer copies its byte, and the tone follows the new ST. -/
theorem timerTransfers : Obligations.TimerTransfers := by
  intro x s
  exact ⟨decode_encode (.ldVxDT x), decode_encode (.ldDTVx x), decode_encode (.ldSTVx x),
    ⟨_, rfl, State.readV_writeV_same _ _ _, rfl, s.writeV_frame x _⟩, ⟨_, rfl, rfl, rfl, s.delayTimer_frame _⟩,
    ⟨_, rfl, rfl, State.soundOn_iff _, rfl, s.soundTimer_frame _⟩⟩

/-! ## The key wait -/

/-- A Step event does nothing outside Running (60_exceptions.md R243). -/
theorem stepEvent_of_not_running (rnd : RandInput) {s : State} (h : s.mode ≠ .running) : stepEvent rnd s = .next s := by
  obtain ⟨hm, -⟩ | ⟨-, he⟩ := stepEvent_cases rnd s
  · exact absurd hm h
  · exact he

/-- Settles O28: the mode after `LD Vx, K` is WaitingForKey, so the instruction completes and a Step event does nothing. -/
theorem keyWaitSuspends : Obligations.KeyWaitSuspends := by
  intro x s
  exact ⟨_, rfl, rfl, rfl, rfl, (exec_frame (.ldVxK x) s).of_eq_next rfl nofun,
    fun rnd => stepEvent_of_not_running rnd nofun⟩

end Sys2Proof.Machine
end

section
/-! Events and clock edges (60_exceptions.md R229, R233 to R235, R242 to R248): what a Load, a Tick and a Step event do,
the order of the events of one edge, that every edge answers a next state, and what an edge changes in Halted. -/

namespace Sys2Proof.Machine

/-! ## Single events -/

/-- A Load event changes memory alone. -/
theorem State.loadEvent_frame (s : State) (a : Addr) (b : Byte) : SameBut noReg [.mem] s (s.loadEvent a b) := by
  constructor
  case mem => intro h; exact absurd (by decide) h
  all_goals intros; rfl

/-- A Tick event changes the timers alone. -/
theorem State.tickEvent_frame (s : State) : SameBut noReg [.dt, .st] s s.tickEvent := by
  constructor
  case dt | st => intro h; exact absurd (by decide) h
  all_goals intros; rfl

/-- Settles O30: a 12-bit address is in memory, so its byte is stored there and the other bytes stay. -/
theorem loadEventWritesOneByte : Obligations.LoadEventWritesOneByte := by
  intro a b s hwf
  refine ⟨_, rfl, ?_, fun c hc => ?_, s.loadEvent_frame a b⟩
  · exact (Memory.read_write hwf a.isLt b a.toNat).trans (if_pos rfl)
  · exact Memory.read_write_ne s.mem (fun hn => hc (BitVec.eq_of_toNat_eq hn)) b

/-- The tone sounds after a Tick exactly when ST was above 1 (R235). -/
theorem State.soundOn_tickEvent_iff (s : State) : s.tickEvent.soundOn = true ↔ 1 < s.st.toNat := by
  have hst : s.tickEvent.st.toNat = s.st.toNat - 1 := toNat_countDown s.st
  rw [State.soundOn_iff, ← BitVec.toNat_ne_iff_ne, hst]
  show s.st.toNat - 1 ≠ 0 ↔ _
  omega

/-- Settles O31: a Tick counts both timers down. -/
theorem tickCountsBothTimersDown : Obligations.TickCountsBothTimersDown := by
  intro s
  exact ⟨_, rfl, toNat_countDown s.dt, toNat_countDown s.st, s.soundOn_tickEvent_iff, s.tickEvent_frame⟩

/-- A Step event in Running is one instruction cycle with the event's random input (R243). -/
theorem stepEvent_of_running (rnd : RandInput) {s : State} (h : s.mode = .running) :
    stepEvent rnd s = runCycle { s with rand := rnd } := by
  obtain ⟨-, he⟩ | ⟨hne, -⟩ := stepEvent_cases rnd s
  · exact he
  · exact absurd h hne

/-- Settles O33: the two cases of a Step event. -/
theorem stepEventOnlyInRunning : Obligations.StepEventOnlyInRunning :=
  fun rnd _ => ⟨stepEvent_of_running rnd, stepEvent_of_not_running rnd⟩

/-- A fault of a Step event changes the mode and the fault record alone, beside the random input of its step. -/
theorem State.stepFault_frame (s : State) (rnd : RandInput) (k : FaultKind) (w : Option Word) (a : Option Nat) :
    SameBut noReg [.mode, .fault, .rand] s (({ s with rand := rnd } : State).raise k w a) := by
  constructor
  case mode | fault | rand => intro h; exact absurd (by decide) h
  all_goals intros; rfl

/-- The fault record has room for every address of 16 bits (R225). -/
theorem State.toNat_raise_addr (s : State) (k : FaultKind) (w : Option Word) {a : Nat} (ha : a < 2 ^ 16) :
    (s.raise k w (some a)).fault.addr.toNat = a := by
  show (BitVec.ofNat 16 a).toNat = a
  rw [BitVec.toNat_ofNat, Nat.mod_eq_of_lt ha]

/-- Settles O37: the cycle of such a Step event is the MemoryFault of the fetch. -/
theorem fetchOutOfRangeHalts : Obligations.FetchOutOfRangeHalts := by
  intro rnd s hm hpc
  have hout : 4096 < s.pc.toNat + 2 := by omega
  have hstep : stepEvent rnd s =
      .next (({ s with rand := rnd } : State).raise .memoryFault none (some (max s.pc.toNat 4096))) := by
    obtain ⟨-, hr⟩ | ⟨hin, -⟩ := runCycle_cases { s with rand := rnd }
    · exact (stepEvent_of_running rnd hm).trans hr
    · exact absurd hin (Nat.not_le.mpr hout)
  refine ⟨_, hstep, rfl, rfl, rfl, rfl, rfl, State.toNat_raise_addr _ _ _ ?_, rfl,
    s.stepFault_frame rnd _ _ _⟩
  exact Nat.max_lt.mpr ⟨s.pc.isLt, by decide⟩

/-! ## The order of an edge's events -/

/-- An event that the sample may leave out is applied when the sample has it. -/
theorem applyEvents_optional_append {e : Event} {s t : State} (h : applyEvent e s = .next t) (c : Bool)
    (es : List Event) : applyEvents ((if c then [e] else []) ++ es) s = applyEvents es (if c then t else s) := by
  cases c with
  | false => rfl
  | true => exact applyEvents_cons_next h es

theorem applyEvents_optional (e : Event) (c : Bool) (s : State) :
    applyEvents (if c then [e] else []) s = if c then applyEvent e s else .next s := by
  cases c with
  | false => rfl
  | true => exact applyEvents_singleton e s

/-- The key event of a sample is a KeyDown or a KeyUp. -/
theorem applyEvent_key (down : Bool) (k : Nibble) (s : State) :
    applyEvent (if down then .keyDown k else .keyUp k) s =
      .next (if down then s.keyDownEvent k else s.keyUpEvent k) := by
  cases down <;> rfl

/-- The start of an edge moves the input queue on and ends the diagnostic pulse, and changes nothing else. -/
theorem State.beginEdge_frame (s : State) : SameBut noReg [.inputs, .diag] s s.beginEdge := by
  constructor
  case inputs | diag => intro h; exact absurd (by decide) h
  all_goals intros; rfl

/-- Settles O34: the edge's event list is Reset alone, or the four optional events one after the other. -/
theorem clockEdgeAppliesEventsInOrder : Obligations.ClockEdgeAppliesEventsInOrder := by
  intro s p rest hin
  refine ⟨fun hrst => ?_, fun hrst => ⟨_, _, _, rfl, rfl, rfl, ?_⟩, ?_, rfl, s.beginEdge_frame⟩
  · rw [step_of_inputs hin, events_of_rst hrst]
    rfl
  · rw [step_of_inputs hin, events_of_not_rst hrst, List.append_assoc, List.append_assoc,
      applyEvents_optional_append rfl, applyEvents_optional_append (applyEvent_key _ _ _),
      applyEvents_optional_append rfl, applyEvents_optional]
    rfl
  · rw [State.beginEdge_inputs, State.nextEdge, hin]

/-! ## Every edge answers a next state -/

theorem AnswersNext.mono {P Q : State → Prop} {r : Result} (h : AnswersNext P r) (hPQ : ∀ t, P t → Q t) :
    AnswersNext Q r := by
  cases h with
  | next h => exact .next (hPQ _ h)

theorem exec_answers (i : Instr) (s : State) : AnswersNext (fun _ => True) (exec i s) :=
  (exec_frame i s).mono fun _ _ => trivial

/-- A fault of the fetch and an unknown opcode are next states too (R224, R227). -/
theorem runCycle_answers (s : State) : AnswersNext (fun _ => True) (runCycle s) := by
  obtain ⟨-, hr⟩ | ⟨-, w, -, hr⟩ := runCycle_cases s
  · rw [hr]
    exact .next trivial
  · rw [hr]
    cases decode w with
    | instr i => exact exec_answers i s
    | unknown w => exact .next trivial

theorem applyEvent_answers (e : Event) (s : State) : AnswersNext (fun _ => True) (applyEvent e s) := by
  cases e with
  | reset | load a b | keyDown k | keyUp k | tick => exact .next trivial
  | step rnd =>
    show AnswersNext _ (stepEvent rnd s)
    obtain ⟨-, he⟩ | ⟨-, he⟩ := stepEvent_cases rnd s
    · rw [he]
      exact runCycle_answers _
    · rw [he]
      exact .next trivial

/-- Settles O50: every event answers a next state, so every list of events does. -/
theorem everyStepAnswersNext : Obligations.EveryStepAnswersNext := by
  intro s
  have hedge : AnswersNext (fun _ => True) (step s) :=
    applyEvents_answers (fun e s _ => applyEvent_answers e s) s.nextEdge.1 (s := s.beginEdge) trivial
  obtain ⟨t, ht, -⟩ := hedge.exists_next
  exact ⟨t, ht⟩

/-! ## Edges in Halted -/

/-- A frame allows more when it names more items. -/
theorem SameBut.mono {regs : Nibble → Bool} {changed changed' : List Item} {s t : State}
    (h : SameBut regs changed s t) (hsub : changed ⊆ changed') : SameBut regs changed' s t where
  v := h.v
  i hn := h.i (mt (@hsub _) hn)
  pc hn := h.pc (mt (@hsub _) hn)
  sp hn := h.sp (mt (@hsub _) hn)
  stack hn := h.stack (mt (@hsub _) hn)
  dt hn := h.dt (mt (@hsub _) hn)
  st hn := h.st (mt (@hsub _) hn)
  mem hn := h.mem (mt (@hsub _) hn)
  fb hn := h.fb (mt (@hsub _) hn)
  keys hn := h.keys (mt (@hsub _) hn)
  mode hn := h.mode (mt (@hsub _) hn)
  waitreg hn := h.waitreg (mt (@hsub _) hn)
  fault hn := h.fault (mt (@hsub _) hn)
  diag hn := h.diag (mt (@hsub _) hn)
  inputs hn := h.inputs (mt (@hsub _) hn)
  rand hn := h.rand (mt (@hsub _) hn)
  draws hn := h.draws (mt (@hsub _) hn)

/-- In Halted an event other than Reset changes only what the host owns (R226). -/
theorem applyEvent_of_halted {e : Event} (he : e ≠ .reset) {s : State} (hm : s.mode = .halted) :
    ∃ t, applyEvent e s = .next t ∧ SameBut noReg [.dt, .st, .keys, .mem] s t := by
  cases e with
  | reset => exact absurd rfl he
  | load a b => exact ⟨_, rfl, (s.loadEvent_frame a b).mono (by decide)⟩
  | keyDown k =>
    obtain ⟨hw, -⟩ | ⟨-, hk⟩ := s.keyDownEvent_cases k
    · exact absurd (hm.symm.trans hw) nofun
    · exact ⟨_, congrArg Host.Outcome.next hk, (s.setKey_frame k true).mono (by decide)⟩
  | keyUp k => exact ⟨_, rfl, (s.setKey_frame k false).mono (by decide)⟩
  | tick => exact ⟨_, rfl, s.tickEvent_frame.mono (by decide)⟩
  | step rnd => exact ⟨s, stepEvent_of_not_running rnd (hm ▸ nofun), SameBut.refl _ _ _⟩

/-- The frame of one event leaves the mode Halted, so the frames of an edge's events compose. -/
theorem applyEvents_of_halted {es : List Event} (hes : .reset ∉ es) {s : State} (hm : s.mode = .halted) :
    ∃ t, applyEvents es s = .next t ∧ SameBut noReg [.dt, .st, .keys, .mem] s t := by
  induction es generalizing s with
  | nil => exact ⟨s, rfl, SameBut.refl _ _ _⟩
  | cons e es ih =>
    obtain ⟨he, hes⟩ := List.ne_and_not_mem_of_not_mem_cons hes
    obtain ⟨t, ht, hst⟩ := applyEvent_of_halted (Ne.symm he) hm
    obtain ⟨u, hu, htu⟩ := ih hes ((hst.mode (by decide)).trans hm)
    exact ⟨u, (applyEvents_cons_next ht es).trans hu, hst.trans htu⟩

/-- Only a sample with `rst` has a Reset event. -/
theorem reset_notMem_events {p : PortSample} (h : p.rst = false) : .reset ∉ p.events := by
  rw [events_of_not_rst h]
  cases p.keyDown <;> simp

theorem State.reset_notMem_nextEdge {s : State} (h : ∀ p rest, s.inputs = p :: rest → p.rst = false) :
    .reset ∉ s.nextEdge.1 := by
  rw [State.nextEdge]
  cases hin : s.inputs with
  | nil => simp
  | cons p rest => exact reset_notMem_events (h p rest hin)

/-- Settles O54: the start of the edge and each of its events keep the engine's state. -/
theorem haltedEngineIsFrozen : Obligations.HaltedEngineIsFrozen := by
  intro s hm hrst
  obtain ⟨t, ht, hframe⟩ := applyEvents_of_halted (State.reset_notMem_nextEdge hrst) (s := s.beginEdge) hm
  have hdiag : t.diag = { s.diag with pulse := false } := hframe.diag (by decide)
  exact ⟨t, ht, (s.beginEdge_frame.mono (by decide)).trans (hframe.mono (by decide)), by rw [hdiag],
    by rw [hdiag]⟩

end Sys2Proof.Machine
end

section
/-! Faults of instructions (60_exceptions.md R220, R224, R225 and R229): which instruction raises which fault in which
state, and that an instruction run in Running halts the machine in no other way. -/

namespace Sys2Proof.Machine

/-- The instruction `i` may raise this kind of fault in `s`, with this address in the record. -/
inductive Raises (s : State) : Instr → FaultKind → Option Nat → Prop where
  | overflow (nnn : Addr) (h : s.sp.val = 16) : Raises s (.call nnn) .stackOverflow none
  | underflow (u : Byte) (h : s.sp.val = 0) : Raises s (.ret u) .stackUnderflow none
  | draw (x y n : Nibble) : Raises s (.drw x y n) .memoryFault (some (max s.i.toNat 4096))
  | bcd (x : Nibble) : Raises s (.ldB x) .memoryFault (some (max s.i.toNat 4096))
  | store (x : Nibble) : Raises s (.storeRegs x) .memoryFault (some (max s.i.toNat 4096))
  | load (x : Nibble) : Raises s (.loadRegs x) .memoryFault (some (max s.i.toNat 4096))

/-- If `t` is Halted, it is `s` with a fault of `i` taken. -/
def HaltsByRaising (i : Instr) (s t : State) : Prop :=
  t.mode = .halted → ∃ k a, Raises s i k a ∧ t = s.raise k (some (encode i)) a

theorem haltsByRaising_of_mode_eq {i : Instr} {s t : State} (hs : s.mode ≠ .halted) (ht : t.mode = s.mode) :
    HaltsByRaising i s t :=
  fun h => absurd (ht.symm.trans h) hs

theorem Raises.haltsByRaising {i : Instr} {s : State} {k : FaultKind} {a : Option Nat} (h : Raises s i k a) :
    HaltsByRaising i s (s.raise k (some (encode i)) a) :=
  fun _ => ⟨k, a, h, rfl⟩

/-- A bounds check halts only by its MemoryFault, whose address is the lowest out of range (20_memory.md rule R54). -/
theorem boundsChecked_haltsByRaising {i : Instr} {s : State} (hi : Raises s i .memoryFault (some (max s.i.toNat 4096)))
    (hs : s.mode ≠ .halted) (n : Nat) {t : State} (ht : t.mode = s.mode) :
    AnswersNext (HaltsByRaising i s) (boundsChecked i n s t) := by
  unfold boundsChecked
  split
  · next a ha =>
    obtain ⟨-, -, rfl⟩ := firstOutOfRange_some.mp ha
    exact .next hi.haltsByRaising
  · exact .next (haltsByRaising_of_mode_eq hs ht)

/-- An instruction run in Running halts only by raising one of its own faults; all else keeps the mode or waits. -/
theorem exec_haltsByRaising (i : Instr) {s : State} (hs : s.mode ≠ .halted) :
    AnswersNext (HaltsByRaising i s) (exec i s) := by
  have keeps : ∀ {t : State}, t.mode = s.mode → AnswersNext (HaltsByRaising i s) (.next t) :=
    fun ht => .next (haltsByRaising_of_mode_eq hs ht)
  cases i with
  | ldByte x nn | addByte x nn => exact keeps rfl
  | ldReg x y | orReg x y | andReg x y | xorReg x y => exact keeps rfl
  | addReg x y | sub x y | subn x y | shr x y | shl x y => exact keeps rfl
  | cls u | jp nnn | jpV0 nnn | ldI nnn => exact keeps rfl
  | ldVxDT x | ldDTVx x | ldSTVx x | addI x | ldF x => exact keeps rfl
  | rnd x nn => exact keeps (State.afterDraw_mode s.advance)
  | seByte x nn | sneByte x nn => exact keeps (State.skipIf_mode s.advance _)
  | seReg x y u | sneReg x y u => exact keeps (State.skipIf_mode s.advance _)
  | skp x | sknp x => exact keeps (State.skipIf_mode s.advance _)
  | ldVxK x => exact .next nofun
  | ret u =>
    obtain hsp | ⟨j, hsp⟩ := s.sp_empty_or_top
    · rw [exec_ret_of_empty u hsp]
      exact .next (Raises.underflow u hsp).haltsByRaising
    · rw [exec_ret_of_top u hsp]
      exact keeps rfl
  | call nnn =>
    obtain hsp | ⟨j, hsp⟩ := s.sp_full_or_free
    · rw [exec_call_of_full nnn hsp]
      exact .next (Raises.overflow nnn hsp).haltsByRaising
    · rw [exec_call_of_free nnn hsp]
      exact keeps rfl
  | drw x y n =>
    rw [exec_drw]
    exact boundsChecked_haltsByRaising (.draw x y n) hs _ rfl
  | ldB x =>
    rw [exec_ldB]
    exact boundsChecked_haltsByRaising (.bcd x) hs _ rfl
  | storeRegs x =>
    rw [exec_storeRegs]
    exact boundsChecked_haltsByRaising (.store x) hs _ rfl
  | loadRegs x =>
    rw [exec_loadRegs]
    exact boundsChecked_haltsByRaising (.load x) hs _ (State.writeRegs_mode _ s.advance 0)

/-- Settles O39: the halted state is one with a fault of the instruction taken; record and frame are that fault's. -/
theorem faultsArePreciseAndClosed : Obligations.FaultsArePreciseAndClosed := by
  intro i s t hm he hhalt
  obtain ⟨k, a, hraise, rfl⟩ := (exec_haltsByRaising i (hm ▸ nofun)).of_eq_next he hhalt
  refine ⟨s.raise_frame _ _ _, rfl, rfl, rfl, ?_⟩
  have haddr := s.toNat_memoryFault_addr i
  cases hraise with
  | overflow nnn hsp => exact Or.inl ⟨rfl, ⟨nnn, rfl⟩, hsp, rfl, rfl⟩
  | underflow u hsp => exact Or.inr (Or.inl ⟨rfl, ⟨u, rfl⟩, hsp, rfl, rfl⟩)
  | draw x y n => exact Or.inr (Or.inr ⟨rfl, rfl, haddr, Or.inl ⟨x, y, n, rfl⟩⟩)
  | bcd x => exact Or.inr (Or.inr ⟨rfl, rfl, haddr, Or.inr (Or.inl ⟨x, rfl⟩)⟩)
  | store x => exact Or.inr (Or.inr ⟨rfl, rfl, haddr, Or.inr (Or.inr (Or.inl ⟨x, rfl⟩))⟩)
  | load x => exact Or.inr (Or.inr ⟨rfl, rfl, haddr, Or.inr (Or.inr (Or.inr ⟨x, rfl⟩))⟩)

end Sys2Proof.Machine
end

section
/-! The ways out of Halted and of a key wait (70_reset_and_hazards.md R260, R261 and R265): what a Reset event leaves, that
an edge with a reset leaves the same, and that no other edge leaves Halted, nor a key wait without a key-down event. -/

namespace Sys2Proof.Machine

/-! ## Reset -/

/-- Settles O32: a Reset event replaces only the diagnostic outputs and the model's own fields of the reset state, so
every other item has the value O49 gives it. -/
theorem resetEventGivesResetState : Obligations.ResetEventGivesResetState := by
  intro s
  obtain ⟨hv, hi, hpc, hsp, hstack, hdt, hst, hkeys, hfb, hmode, hwait, hfault, -, -, hmem, -, -⟩ := resetStateValues
  exact ⟨s.resetEvent, rfl, hv, hi, hpc, hsp, hstack, hdt, hst, hkeys, hfb, hmode, hwait, hfault, fun _ _ => rfl, hmem,
    rfl, rfl, rfl, rfl⟩

/-- An edge with a reset is that Reset event alone, whatever else its sample drives (60_exceptions.md R242). -/
theorem step_of_rst {s : State} {p : PortSample} {rest : List PortSample} (hin : s.inputs = p :: rest)
    (hrst : p.rst = true) : step s = .next s.beginEdge.resetEvent := by
  obtain ⟨hreset, -⟩ := clockEdgeAppliesEventsInOrder s p rest hin
  exact hreset hrst

/-! ## Edges in Halted and in a key wait -/

/-- An edge without a reset stays in Halted. -/
theorem step_mode_of_halted {s t : State} (hstep : step s = .next t) (hm : s.mode = .halted)
    (hrst : ∀ p rest, s.inputs = p :: rest → p.rst = false) : t.mode = .halted := by
  obtain ⟨t', hstep', hframe, -⟩ := haltedEngineIsFrozen s hm hrst
  cases hstep.symm.trans hstep'
  exact (hframe.mode (by decide)).trans hm

/-- A key wait lasts through an edge with neither a reset nor a key-down event: the Step event, whether it stands alone or
last, does nothing in the wait, and the events before it leave the mode as it is. -/
theorem step_mode_of_waitingForKey {s t : State} (hstep : step s = .next t) (hm : s.mode = .waitingForKey)
    (hno : ∀ p rest, s.inputs = p :: rest → p.rst = false ∧ ¬ (p.keyEvt = true ∧ p.keyDown = true)) :
    t.mode = .waitingForKey := by
  have idle : ∀ {rnd : RandInput} {u : State}, u.mode = .waitingForKey → stepEvent rnd u = .next u :=
    fun hu => stepEvent_of_not_running _ (hu ▸ nofun)
  cases hin : s.inputs with
  | nil =>
    cases hstep.symm.trans ((step_of_no_inputs hin).trans (idle hm))
    exact hm
  | cons p rest =>
    obtain ⟨hrst, hkey⟩ := hno p rest hin
    obtain ⟨-, hevents, -⟩ := clockEdgeAppliesEventsInOrder s p rest hin
    obtain ⟨s1, s2, s3, hload, hkeyEvt, htick, he⟩ := hevents hrst
    have hm1 : s1.mode = .waitingForKey := by
      rw [hload]
      split <;> exact hm
    have hm2 : s2.mode = .waitingForKey := by
      rw [hkeyEvt]
      split
      · next hevt =>
        rw [if_neg fun hdown => hkey ⟨hevt, hdown⟩]
        exact hm1
      · exact hm1
    have hm3 : s3.mode = .waitingForKey := by
      rw [htick]
      split <;> exact hm2
    rw [idle hm3, ite_self] at he
    cases hstep.symm.trans he
    exact hm3

/-- Settles O53: without the inputs named, the two edges above keep the mode; an edge with a reset leaves the reset
state's registers, so the wait is discarded and its register gets no key. -/
theorem onlyResetLeavesHalted : Obligations.OnlyResetLeavesHalted := by
  intro s t hstep
  refine ⟨fun hm hleft => ?_, fun hm hleft => ?_, fun p rest hin hrst => ?_⟩
  · by_contra hno
    refine hleft (step_mode_of_halted hstep hm fun p rest hin => ?_)
    exact Bool.eq_false_iff.mpr fun hrst => hno ⟨p, rest, hin, hrst⟩
  · by_contra hno
    refine hleft (step_mode_of_waitingForKey hstep hm fun p rest hin => ⟨?_, fun hkey => ?_⟩)
    · exact Bool.eq_false_iff.mpr fun hrst => hno ⟨p, rest, hin, Or.inl hrst⟩
    · exact hno ⟨p, rest, hin, Or.inr hkey⟩
  · cases hstep.symm.trans (step_of_rst hin hrst)
    obtain ⟨u, hu, hv, -, -, -, -, -, -, -, -, hmode, hwait, -⟩ := resetEventGivesResetState s.beginEdge
    cases hu
    exact ⟨hmode, hwait, hv⟩

end Sys2Proof.Machine
end

section
/-! The words that the spec's test vectors write out for the decoder (95_test_vectors.md part 2.1): those of the
instructions are what the encoder writes, the others lie in the groups of 30_encoding.md rule R81. -/

namespace Sys2Proof.Machine

/-- Settles O47: ten of the words are the encodings of their instructions, ignored bits included; 0123, 8008 and FFFF
lie in the first, second and fourth group of the unknown space. -/
theorem decodesSpecWords : Obligations.DecodesSpecWords := by
  have word : ∀ {w : Word} {i : Instr}, encode i = w → decode w = .instr i := decode_eq_instr_iff.mpr
  have unknown : ∀ {w : Word}, InUnknownSpace w → decode w = .unknown w := (decode_eq_unknown_iff _).mpr
  exact ⟨word rfl, word rfl, word rfl, word rfl, unknown (.inl (by decide)), word rfl, word rfl,
    unknown (.inr (.inl (by decide))), word rfl, word rfl, word rfl, word rfl,
    unknown (.inr (.inr (.inr (by decide))))⟩

end Sys2Proof.Machine
end
